-- ==== Sys2Proof/Word.lean ====
section
/-! DEFINITION. The words of BCDCAL: one byte (00_scope.md R5), the 80-bit command word (30_encoding.md R60), the
16-bit response word (R60, R68) and the 6-bit address of the text memory (20_memory.md R40). Bit 0 is the least
significant (00_scope.md R7). -/

namespace Sys2Proof

/-- A byte: a register, a text location, a byte operand. -/
abbrev Byte := BitVec 8

/-- A command word `cw[79:0]` (R60). -/
abbrev CmdWord := BitVec 80

/-- A response word `rw[15:0]` (R60, R68). -/
abbrev RspWord := BitVec 16

/-- An address of the text memory, 0 to 63 (R40): no other address can be written down. -/
abbrev TxtAddr := BitVec 6

/-- `hi(b) = b[7:4]`, read as a number (R7). -/
def hi (b : Byte) : Nat := (b.extractLsb' 4 4).toNat

/-- `lo(b) = b[3:0]`, read as a number (R7). -/
def lo (b : Byte) : Nat := (b.extractLsb' 0 4).toNat

end Sys2Proof
end

