-- ==== Sys2Proof/Syntax.lean ====
section
/-! DEFINITION. The nine commands (30_encoding.md R63), the names of the eight registers (10_state.md R21), and the
assembler's lines (R70, R71) as abstract syntax. -/

namespace Sys2Proof

/-- The eight general registers `x[0]` to `x[7]`, by name and in order (10_state.md R21). -/
inductive Reg where
  | hun | sec | min | hr | day | mon | yr | wd
deriving DecidableEq, Repr

/-- The nine commands with their operands (30_encoding.md R61, R63). Every operand has its field's width, so every term
is a command the block can be given. -/
inductive Instr where
  /-- Encode a number as a BCD byte (40_codec.md R85). -/
  | enc (b : Byte)
  /-- Decode a BCD byte (40_codec.md R86). -/
  | dec (b : Byte)
  /-- Validate and store a date-time (41_buffer.md R94). -/
  | setdt (year : BitVec 16) (month day wd hour min sec hun : Byte)
  /-- Store one raw byte into the buffer (41_buffer.md R95). -/
  | lddt (r : Reg) (b : Byte)
  /-- Read one raw byte of the buffer (41_buffer.md R96). -/
  | rddt (r : Reg)
  /-- Parse an ISO8601 text (43_parsers.md R124). -/
  | piso
  /-- Parse an HTTP-date text (43_parsers.md R125). -/
  | phttp
  /-- Write one text byte (42_text_access.md R110). -/
  | wrtxt (addr : TxtAddr) (b : Byte)
  /-- Read one text byte (42_text_access.md R111). -/
  | rdtxt (addr : TxtAddr)
deriving DecidableEq, Repr

/-- The nine mnemonics (30_encoding.md R63). -/
inductive Mnemonic where
  | enc | dec | setdt | lddt | rddt | piso | phttp | wrtxt | rdtxt
deriving DecidableEq, Repr

/-- The mnemonic of a command. -/
def Instr.mnemonic : Instr → Mnemonic
  | .enc _ => .enc
  | .dec _ => .dec
  | .setdt _ _ _ _ _ _ _ _ => .setdt
  | .lddt _ _ => .lddt
  | .rddt _ => .rddt
  | .piso => .piso
  | .phttp => .phttp
  | .wrtxt _ _ => .wrtxt
  | .rdtxt _ => .rdtxt

/-- An operand as an assembler line writes it (30_encoding.md R70): a number, a character in single quotes, or a
register name. -/
inductive AsmOperand where
  | num (n : Nat)
  | chr (c : Char)
  | reg (r : Reg)
deriving DecidableEq, Repr

/-- An assembler line (30_encoding.md R70, R71): a command, or one of the pseudo-instructions `TXTSTR a, "..."`
(`TXTSTR "..."` is the same with `a = 0`) and `RDALL`. -/
inductive AsmLine where
  | cmd (m : Mnemonic) (operands : List AsmOperand)
  | txtstr (a : Nat) (text : List Char)
  | rdall
deriving DecidableEq, Repr

end Sys2Proof
end

