-- ==== Sys2Proof/WellFormed.lean ====
section
/-! DEFINITION. What is well formed. An Instr is so by its types. A COMMAND WORD is when it is legal, said here by the
match and mask columns of spec/opcode_table.json (30_encoding.md R64, second form of R66); Decode.lean says it a second
time, by R61's fields. An ASSEMBLER LINE is when it has its command's operands and each fits its field (R70, R71). -/

namespace Sys2Proof

/-- The opcode `cw[79:72]` of a command (30_encoding.md R63). -/
def Mnemonic.opcode : Mnemonic → Byte
  | .enc => 0x01
  | .dec => 0x02
  | .setdt => 0x10
  | .lddt => 0x11
  | .rddt => 0x12
  | .piso => 0x20
  | .phttp => 0x21
  | .wrtxt => 0x30
  | .rdtxt => 0x31

/-- A row of spec/opcode_table.json. -/
structure OpRow where
  mnemonic : Mnemonic
  bits : CmdWord
  mask : CmdWord
deriving DecidableEq, Repr

/-- The rows of spec/opcode_table.json, in its order. -/
def opRows : List OpRow :=
  [ ⟨.enc,   0x01000000000000000000#80, 0xFF00FFFFFFFFFFFFFFFF#80⟩,
    ⟨.dec,   0x02000000000000000000#80, 0xFF00FFFFFFFFFFFFFFFF#80⟩,
    ⟨.setdt, 0x10000000000000000000#80, 0xFF000000000000000000#80⟩,
    ⟨.lddt,  0x11000000000000000000#80, 0xFFF800FFFFFFFFFFFFFF#80⟩,
    ⟨.rddt,  0x12000000000000000000#80, 0xFFF8FFFFFFFFFFFFFFFF#80⟩,
    ⟨.piso,  0x20000000000000000000#80, 0xFFFFFFFFFFFFFFFFFFFF#80⟩,
    ⟨.phttp, 0x21000000000000000000#80, 0xFFFFFFFFFFFFFFFFFFFF#80⟩,
    ⟨.wrtxt, 0x30000000000000000000#80, 0xFFC000FFFFFFFFFFFFFF#80⟩,
    ⟨.rdtxt, 0x31000000000000000000#80, 0xFFC0FFFFFFFFFFFFFFFF#80⟩ ]

/-- The word selects the row: `cw AND mask = match` (R66). -/
def OpRow.selects (row : OpRow) (cw : CmdWord) : Bool := decide (cw &&& row.mask = row.bits)

/-- The command word is legal: some row selects it (R64, R66). -/
def legalWord (cw : CmdWord) : Bool := opRows.any (·.selects cw)

/-- The widths of a command's operand fields, from the most significant down (R61, R70). -/
def Mnemonic.operandWidths : Mnemonic → List Nat
  | .enc => [8]
  | .dec => [8]
  | .setdt => [16, 8, 8, 8, 8, 8, 8, 8]
  | .lddt => [3, 8]
  | .rddt => [3]
  | .piso => []
  | .phttp => []
  | .wrtxt => [6, 8]
  | .rdtxt => [6]

/-- The operand may stand for a field of that width (R70): a number below `2^w`, a character (its code, R12, is 7-bit)
whose code fits, or a register name where the field is the 3-bit `idx`. -/
def AsmOperand.fits (w : Nat) : AsmOperand → Bool
  | .num n => decide (n < 2 ^ w)
  | .chr c => decide (c.toNat < 128) && decide (c.toNat < 2 ^ w)
  | .reg _ => decide (w = 3)

/-- The operands match the fields one for one. -/
def operandsFit : List Nat → List AsmOperand → Bool
  | [], [] => true
  | w :: ws, o :: os => o.fits w && operandsFit ws os
  | [], _ :: _ => false
  | _ :: _, [] => false

/-- The line is no assembly error (R70, R71): "An operand too large for its field is an assembly error, not a
truncation"; a TXTSTR ends inside the 64 bytes and holds characters with a 7-bit code (R12). -/
def AsmLine.wellFormed : AsmLine → Bool
  | .cmd m os => operandsFit m.operandWidths os
  | .txtstr a text => decide (a + text.length ≤ 64) && text.all (fun c => decide (c.toNat < 128))
  | .rdall => true

end Sys2Proof
end

