-- ==== Sys2Proof/Decode.lean ====
section
/-! DEFINITION. The decoder, total on all command words (30_encoding.md R66), and the encoder, both by the fields of R61
and the opcodes of R63. An illegal word (R64) is answered with why it is illegal. -/

namespace Sys2Proof

/-- Why a command word is illegal (R64): (a) its opcode is none of the nine, (b) a must-be-zero bit of its format is set. -/
inductive Illegal where
  | unknownOpcode (op : Byte)
  | reservedBitSet (m : Mnemonic)
deriving DecidableEq, Repr

/-- The 3-bit index of a register (10_state.md R21). -/
def Reg.idx : Reg → BitVec 3
  | .hun => 0 | .sec => 1 | .min => 2 | .hr => 3 | .day => 4 | .mon => 5 | .yr => 6 | .wd => 7

/-- The register of a 3-bit index (10_state.md R21). -/
def Reg.ofIdx (i : BitVec 3) : Reg :=
  match i.toNat with
  | 0 => .hun
  | 1 => .sec
  | 2 => .min
  | 3 => .hr
  | 4 => .day
  | 5 => .mon
  | 6 => .yr
  | _ => .wd

/-- `cw[start+w-1 : start]` (00_scope.md R7). -/
def field (start w : Nat) (cw : CmdWord) : BitVec w := cw.extractLsb' start w

/-- `cw[start+w-1 : start]` is all zero (the `0` fields of R61). -/
def zeroField (start w : Nat) (cw : CmdWord) : Bool := decide (field start w cw = 0)

/-- The command, unless a must-be-zero bit of its format is set (R64 (b)). -/
def ifZero (zero : Bool) (i : Instr) : Except Illegal Instr :=
  if zero then .ok i else .error (.reservedBitSet i.mnemonic)

/-- The decoder (R66): opcode by R63, must-be-zero bits and fields by R61. -/
def decode (cw : CmdWord) : Except Illegal Instr :=
  match (field 72 8 cw).toNat with
  | 0x01 => ifZero (zeroField 0 64 cw) (.enc (field 64 8 cw))
  | 0x02 => ifZero (zeroField 0 64 cw) (.dec (field 64 8 cw))
  | 0x10 => .ok (.setdt (field 56 16 cw) (field 48 8 cw) (field 40 8 cw) (field 32 8 cw) (field 24 8 cw)
      (field 16 8 cw) (field 8 8 cw) (field 0 8 cw))
  | 0x11 => ifZero (zeroField 67 5 cw && zeroField 0 56 cw) (.lddt (.ofIdx (field 64 3 cw)) (field 56 8 cw))
  | 0x12 => ifZero (zeroField 67 5 cw && zeroField 0 64 cw) (.rddt (.ofIdx (field 64 3 cw)))
  | 0x20 => ifZero (zeroField 0 72 cw) .piso
  | 0x21 => ifZero (zeroField 0 72 cw) .phttp
  | 0x30 => ifZero (zeroField 70 2 cw && zeroField 0 56 cw) (.wrtxt (field 64 6 cw) (field 56 8 cw))
  | 0x31 => ifZero (zeroField 70 2 cw && zeroField 0 64 cw) (.rdtxt (field 64 6 cw))
  | _ => .error (.unknownOpcode (field 72 8 cw))

/-- The encoder: each format of R61 as its pattern, most significant field first. -/
def encode : Instr → CmdWord
  | .enc b => 0x01#8 ++ b ++ 0#64
  | .dec b => 0x02#8 ++ b ++ 0#64
  | .setdt year month day wd hour min sec hun =>
      0x10#8 ++ year ++ month ++ day ++ wd ++ hour ++ min ++ sec ++ hun
  | .lddt r b => 0x11#8 ++ 0#5 ++ r.idx ++ b ++ 0#56
  | .rddt r => 0x12#8 ++ 0#5 ++ r.idx ++ 0#64
  | .piso => 0x20#8 ++ 0#72
  | .phttp => 0x21#8 ++ 0#72
  | .wrtxt addr b => 0x30#8 ++ 0#2 ++ addr ++ b ++ 0#56
  | .rdtxt addr => 0x31#8 ++ 0#2 ++ addr ++ 0#64

/-- The command word whose bits are `w`, `nbits` of them, every bit above zero. A command word is one word (R60), so bit
0 of the table is bit 0 of `cw`. -/
def tableWord (nbits w : Nat) : CmdWord := BitVec.ofNat 80 (w % 2 ^ nbits)

/-- What the decoder reads from an instruction whose bits are `w`; none where the word is illegal. -/
def decodeTableWord (nbits w : Nat) : Option Instr :=
  match decode (tableWord nbits w) with
  | .ok i => some i
  | .error _ => none

end Sys2Proof
end

