-- ==== Sys2Proof/Config.lean ====
section
/-! DEFINITION. What is fixed for one block instance (00_scope.md R5) and what the spec leaves open (R11): two parameter
functions and a stream of draws. The three opaque constants have no body: nothing can be proved of their values. -/

namespace Sys2Proof

/-- A stream of draws: the value of the n-th evaluation of `draw(INT)` (00_scope.md R11), as the 16 bits of an
element of `INT` (R5, R8). -/
abbrev DrawStream := Nat → BitVec 16

namespace Config

/-- `TXT_LEN`: the text memory has 64 bytes (R5). -/
def txtLen : Nat := 64

/-- What a text byte reads as that the memory's list does not name. DESIGN CHOICE, unsafe: notes/assumptions/2.md
(10_state.md R31 leaves the reset contents unspecified). -/
def txtUnlisted : Byte := 0x00#8

/-- `ENC_OVER`: the byte ENC answers for 100 to 255 (40_codec.md R81). Free, a function of its argument alone:
notes/assumptions/7.md. -/
opaque encOver : Byte → Byte

/-- `DEC_NONBCD`: the byte DEC answers for a byte that is not valid BCD (40_codec.md R83). Free, a function of its
argument alone: notes/assumptions/8.md. -/
opaque decNonBcd : Byte → Byte

/-- The block's stream of draws (00_scope.md R11): a free value for every evaluation. notes/assumptions/5.md. -/
opaque draw : DrawStream

end Config
end Sys2Proof
end

