-- ==== Sys2Proof/Machine/State.lean ====
section
/-! DEFINITION. The state of BCDCAL as plain data: the DateTime buffer `x[0..7]` and the text memory `TXT[0..63]`
(10_state.md R20), the interface state of the two channels (R30, 30_encoding.md R72), what the host presents next, and
the counter of draws. There is no program counter, flag, mode or control register (R24 to R27). -/

namespace Sys2Proof.Machine

/-- The DateTime buffer: the registers `x[0]` to `x[7]` by name, index 0 first (10_state.md R21). -/
structure DateTime where
  hun : Byte
  sec : Byte
  min : Byte
  hr : Byte
  day : Byte
  mon : Byte
  yr : Byte
  wd : Byte
deriving DecidableEq, Repr

/-- The text memory: (address, byte) pairs, addresses strictly rising and below 64, no byte equal to
Config.txtUnlisted (Memory.wf in Ops.lean). -/
abbrev Memory := List Host.Cell

/-- What the host does next on the command channel (30_encoding.md R72): present a command word and hold it until it is
accepted and answered, or assert `rst` (70_reset_and_hazards.md R170). notes/assumptions/4.md. -/
inductive HostInput where
  | cmd (cw : CmdWord)
  | rst
deriving DecidableEq, Repr

/-- No step of the block faults ("No exceptions ... anywhere", 60_exceptions.md R150, R157; 93_implementation_defined.md
part 1): the type has no constructor, so no meaning can raise one. -/
inductive Fault where
deriving DecidableEq, Repr

/-- Why a command has no meaning. -/
inductive Refusal where
  /-- Raised only by an arm of exec for a command the model does not cover: none is left. Safe. -/
  | notModelled (mnemonic : String)
deriving DecidableEq, Repr

/-- The state. -/
structure State where
  /-- The general registers: the DateTime buffer (R20 (a), R21). -/
  x : DateTime
  /-- The text memory `TXT` (R20 (b), R28). -/
  txt : Memory
  /-- A command has been accepted and its response not yet given (R30). -/
  busy : Bool
  /-- The register behind `rsp_valid`: the response word is being presented (R72). -/
  rspValid : Bool
  /-- The response register (R30, R68). -/
  rsp : RspWord
  /-- What the host presents next, first thing first: the model's own field. notes/assumptions/4.md. -/
  inputs : List HostInput
  /-- How many draws have been taken (00_scope.md R11): the model's own field. notes/assumptions/5.md. -/
  draws : Nat
deriving DecidableEq, Repr

/-- The machine right after reset (10_state.md R31, 70_reset_and_hazards.md R170): interface idle. The spec leaves
`x`, `TXT` and the response register unspecified: DESIGN CHOICE zero, notes/assumptions/1.md, 2.md, 3.md. Safety.lean's
AfterReset is the whole set of states R31 allows. -/
def State.reset : State where
  x := ⟨0x00#8, 0x00#8, 0x00#8, 0x00#8, 0x00#8, 0x00#8, 0x00#8, 0x00#8⟩
  txt := []
  busy := false
  rspValid := false
  rsp := 0x0000#16
  inputs := []
  draws := 0

end Sys2Proof.Machine
end

