-- ==== Sys2Proof/Machine/Flags.lean ====
section
/-! DEFINITION. The block has no flags (10_state.md R25). What a command reports is in its response word: the bits ILL
and OK (30_encoding.md R68); what decides OK are the field domains of set_date_time (41_buffer.md R90). -/

namespace Sys2Proof.Machine

/-- The response word `{ILL, OK, 0b000000, DATA}` (R68). -/
def rspWord (ill ok : Bool) (data : Byte) : RspWord :=
  BitVec.ofBool ill ++ BitVec.ofBool ok ++ 0#6 ++ data

/-- The eight arguments of set_date_time as integers (41_buffer.md R90, 00_scope.md R8). -/
structure Fields where
  year : Int
  month : Int
  day : Int
  wd : Int
  hour : Int
  min : Int
  sec : Int
  hun : Int
deriving DecidableEq, Repr

/-- The domain of the year: at least 2000, no upper limit (R90). -/
def yearOk (v : Int) : Bool := decide (2000 ≤ v)

/-- A domain `a <= v <= b` of integers (R90). -/
def within (a b v : Int) : Bool := decide (a ≤ v) && decide (v ≤ b)

/-- 1 to 12 (R90). -/
def monthOk (v : Int) : Bool := within 1 12 v

/-- 1 to 31 (R90): no month length. -/
def dayOk (v : Int) : Bool := within 1 31 v

/-- 0 to 6 (R90). -/
def wdOk (v : Int) : Bool := within 0 6 v

/-- 0 to 23 (R90). -/
def hourOk (v : Int) : Bool := within 0 23 v

/-- 0 to 59 (R90). -/
def minOk (v : Int) : Bool := within 0 59 v

/-- 0 to 59 (R90). -/
def secOk (v : Int) : Bool := within 0 59 v

/-- 0 to 99 (R90). -/
def hunOk (v : Int) : Bool := within 0 99 v

end Sys2Proof.Machine
end

