-- ==== Sys2Proof/Machine/Operands.lean ====
section
/-! DEFINITION. How an operand gets its value: the BCD codec (40_codec.md R80 to R83), characters (00_scope.md R12), and
the parsers' helper functions over text bytes (43_parsers.md R120 to R123). A function that may draw takes the stream and
the number of draws taken so far, and answers its value with the new number. -/

namespace Sys2Proof.Machine

/-- `enc(d)`: tens digit in the high nibble, ones digit in the low up to 99 (R80); ENC_OVER above (R81). -/
def enc (d : Nat) : Byte :=
  if d ≤ 99 then BitVec.ofNat 8 (16 * (d / 10) + d % 10) else Config.encOver (BitVec.ofNat 8 d)

/-- A valid BCD byte: both nibbles at most 9 (R82). -/
def isBcd (b : Byte) : Bool := decide (hi b ≤ 9) && decide (lo b ≤ 9)

/-- `dec(b)`: `10*hi(b) + lo(b)` for a valid BCD byte (R82); DEC_NONBCD otherwise (R83). -/
def dec (b : Byte) : Byte :=
  if isBcd b then BitVec.ofNat 8 (10 * hi b + lo b) else Config.decNonBcd b

/-- `isdigit(c)` (00_scope.md R12). -/
def isDigit (c : Byte) : Bool := decide (0x30 ≤ c.toNat) && decide (c.toNat ≤ 0x39)

/-- `dval(c)` of a digit (00_scope.md R12). -/
def dval (c : Byte) : Int := (c.toNat : Int) - 0x30

/-- `draw(INT)` (00_scope.md R11): the next value of the stream, in -32768 to 32767. -/
def drawInt (d : DrawStream) (n : Nat) : Int × Nat := ((d n).toInt, n + 1)

/-- `draw({a, ...})` (00_scope.md R11): an element of the set, chosen by the next value of the stream.
notes/assumptions/6.md. -/
def drawFrom (d : DrawStream) (n : Nat) (a : Int) (more : List Int) : Int × Nat :=
  ((a :: more).getD ((d n).toNat % (more.length + 1)) a, n + 1)

/-- `chunk2(c1, c0)` (R120). -/
def chunk2 (d : DrawStream) (n : Nat) (c1 c0 : Byte) : Int × Nat :=
  if isDigit c1 && isDigit c0 then (10 * dval c1 + dval c0, n) else drawInt d n

/-- `yearof(c1, c0)` (R121): the draw is the year itself. -/
def yearOf (d : DrawStream) (n : Nat) (c1 c0 : Byte) : Int × Nat :=
  if isDigit c1 && isDigit c0 then (2000 + 10 * dval c1 + dval c0, n) else drawInt d n

/-- `wdlookup(c0, c1)` (R122): `T` 0x54, `S` 0x53, `M` 0x4D, `W` 0x57, `F` 0x46; `u` 0x75, `h` 0x68, `a` 0x61 (R12). -/
def wdLookup (d : DrawStream) (n : Nat) (c0 c1 : Byte) : Int × Nat :=
  if c0 = 0x54#8 then
    if c1 = 0x75#8 then (2, n)
    else if c1 = 0x68#8 then (4, n)
    else drawFrom d n 2 [4]
  else if c0 = 0x53#8 then
    if c1 = 0x61#8 then (6, n)
    else if c1 = 0x75#8 then (0, n)
    else drawFrom d n 0 [6]
  else if c0 = 0x4D#8 then (1, n)
  else if c0 = 0x57#8 then (3, n)
  else if c0 = 0x46#8 then (5, n)
  else (5, n)

/-- `monlookup(c0, c1, c2)` (R123): `J` 0x4A, `F` 0x46, `M` 0x4D, `A` 0x41, `S` 0x53, `O` 0x4F, `N` 0x4E; `a` 0x61,
`u` 0x75, `n` 0x6E, `l` 0x6C, `r` 0x72, `y` 0x79, `p` 0x70 (R12). -/
def monLookup (d : DrawStream) (n : Nat) (c0 c1 c2 : Byte) : Int × Nat :=
  if c0 = 0x4A#8 then
    if c1 = 0x61#8 ∧ c2 = 0x6E#8 then (1, n)
    else if c1 = 0x75#8 ∧ c2 = 0x6E#8 then (6, n)
    else if c1 = 0x75#8 ∧ c2 = 0x6C#8 then (7, n)
    else drawFrom d n 1 [6, 7]
  else if c0 = 0x46#8 then (2, n)
  else if c0 = 0x4D#8 then
    if c2 = 0x72#8 then (3, n)
    else if c2 = 0x79#8 then (5, n)
    else drawFrom d n 3 [5]
  else if c0 = 0x41#8 then
    if c1 = 0x70#8 then (4, n)
    else if c1 = 0x75#8 then (8, n)
    else drawFrom d n 4 [8]
  else if c0 = 0x53#8 then (9, n)
  else if c0 = 0x4F#8 then (10, n)
  else if c0 = 0x4E#8 then (11, n)
  else (12, n)

/-- The prefix skip of the HTTP-date parser (43_parsers.md R126): 6 when the first byte is `D` (0x44), else 0. -/
def prefixSkip (t : TxtAddr → Byte) : TxtAddr := if t 0 = 0x44#8 then 6 else 0

/-- The eight arguments PISO gives SetDateTime for the text `t`, and the number of draws then taken (43_parsers.md R124):
weekday and hundredth forced to 0. Draws are taken in the order of the pseudocode: notes/assumptions/12.md. -/
def isoFields (d : DrawStream) (n : Nat) (t : TxtAddr → Byte) : Fields × Nat :=
  let year := yearOf d n (t 2) (t 3)
  let month := chunk2 d year.2 (t 5) (t 6)
  let day := chunk2 d month.2 (t 8) (t 9)
  let hour := chunk2 d day.2 (t 11) (t 12)
  let min := chunk2 d hour.2 (t 14) (t 15)
  let sec := chunk2 d min.2 (t 17) (t 18)
  ({ year := year.1, month := month.1, day := day.1, wd := 0,
     hour := hour.1, min := min.1, sec := sec.1, hun := 0 }, sec.2)

/-- The eight arguments PHTTP gives SetDateTime for the text `t`, and the number of draws then taken (43_parsers.md
R125): hundredth forced to 0. -/
def httpFields (d : DrawStream) (n : Nat) (t : TxtAddr → Byte) : Fields × Nat :=
  let p := prefixSkip t
  let wd := wdLookup d n (t p) (t (p + 1))
  let day := chunk2 d wd.2 (t (p + 5)) (t (p + 6))
  let month := monLookup d day.2 (t (p + 8)) (t (p + 9)) (t (p + 10))
  let year := yearOf d month.2 (t (p + 14)) (t (p + 15))
  let hour := chunk2 d year.2 (t (p + 17)) (t (p + 18))
  let min := chunk2 d hour.2 (t (p + 20)) (t (p + 21))
  let sec := chunk2 d min.2 (t (p + 23)) (t (p + 24))
  ({ year := year.1, month := month.1, day := day.1, wd := wd.1,
     hour := hour.1, min := min.1, sec := sec.1, hun := 0 }, sec.2)

end Sys2Proof.Machine
end

