-- ==== Sys2Proof/Machine/Ops.lean ====
section
/-! DEFINITION. The named operations over registers, text memory and the response register (00_scope.md R9, R10), the
SetDateTime procedure (41_buffer.md R91), the block's one "exception" `raise Illegal` (R10, 60_exceptions.md R151: nothing
is saved and nothing returns from it, R157, R158), and reset (70_reset_and_hazards.md R170). -/

namespace Sys2Proof.Machine

/-- `x[i]` (R9). -/
def DateTime.get (x : DateTime) : Reg → Byte
  | .hun => x.hun
  | .sec => x.sec
  | .min => x.min
  | .hr => x.hr
  | .day => x.day
  | .mon => x.mon
  | .yr => x.yr
  | .wd => x.wd

/-- `x[i] <- v` (R9). -/
def DateTime.set (x : DateTime) (r : Reg) (v : Byte) : DateTime :=
  match r with
  | .hun => { x with hun := v }
  | .sec => { x with sec := v }
  | .min => { x with min := v }
  | .hr => { x with hr := v }
  | .day => { x with day := v }
  | .mon => { x with mon := v }
  | .yr => { x with yr := v }
  | .wd => { x with wd := v }

/-- The byte at an address of the memory's list; what is not listed reads as Config.txtUnlisted. -/
def Memory.read : Memory → Nat → Byte
  | [], _ => Config.txtUnlisted
  | (k, b) :: rest, a => if k = a then b else Memory.read rest a

/-- The list with `v` at address `a`, in canonical form again: the entry at its place, none when `v` is what an unlisted
address reads as. -/
def Memory.write : Memory → Nat → Byte → Memory
  | [], a, v => if v = Config.txtUnlisted then [] else [(a, v)]
  | (k, b) :: rest, a, v =>
    if a < k then (if v = Config.txtUnlisted then (k, b) :: rest else (a, v) :: (k, b) :: rest)
    else if a = k then (if v = Config.txtUnlisted then rest else (a, v) :: rest)
    else (k, b) :: Memory.write rest a v

/-- The canonical form from address `least` on: addresses strictly rising and below TXT_LEN, no byte that an unlisted
address reads as. -/
def Memory.wfFrom (least : Nat) : Memory → Bool
  | [] => true
  | (k, b) :: rest =>
    decide (least ≤ k) && decide (k < Config.txtLen) && decide (b ≠ Config.txtUnlisted) && Memory.wfFrom (k + 1) rest

/-- The memory is in canonical form. -/
def Memory.wf (m : Memory) : Bool := Memory.wfFrom 0 m

/-- `TXT[a]`, that is `MemRead(a, 1)` (R9). -/
def readTxt (s : State) (a : TxtAddr) : Byte := Memory.read s.txt a.toNat

/-- `TXT[a] <- v`, that is `MemWrite(a, 1, v)` (R9). -/
def writeTxt (a : TxtAddr) (v : Byte) (s : State) : State := { s with txt := Memory.write s.txt a.toNat v }

/-- `x[i]` of the state (R9). -/
def readReg (s : State) (r : Reg) : Byte := s.x.get r

/-- `x[i] <- v` in the state (R9). -/
def writeReg (r : Reg) (v : Byte) (s : State) : State := { s with x := s.x.set r v }

/-- `respond(0, OK, DATA)` (R10): the response register is overwritten (10_state.md R30). -/
def respond (ok : Bool) (data : Byte) (s : State) : State := { s with rsp := rspWord false ok data }

/-- `raise Illegal(cw)` (R10, R151): no state changes, the response is `respond(1, 0, 0x00)`. -/
def raiseIllegal (s : State) : State := { s with rsp := rspWord true false 0x00#8 }

/-- The SetDateTime procedure on the buffer (41_buffer.md R91): the buffer it leaves, and its boolean. -/
def setDateTime (f : Fields) (x : DateTime) : DateTime × Bool :=
  if ¬ yearOk f.year then (x, false) else
  let x := x.set .yr (enc (f.year % 100).toNat)
  if ¬ monthOk f.month then (x, false) else
  let x := x.set .mon (enc f.month.toNat)
  if ¬ dayOk f.day then (x, false) else
  let x := x.set .day (enc f.day.toNat)
  if ¬ wdOk f.wd then (x, false) else
  let x := x.set .wd (enc f.wd.toNat)
  if ¬ hourOk f.hour then (x, false) else
  let x := x.set .hr (enc f.hour.toNat)
  if ¬ minOk f.min then (x, false) else
  let x := x.set .min (enc f.min.toNat)
  if ¬ secOk f.sec then (x, false) else
  let x := x.set .sec (enc f.sec.toNat)
  if ¬ hunOk f.hun then (x, false) else
  let x := x.set .hun (enc f.hun.toNat)
  (x, true)

/-- What both parsers end with (43_parsers.md R124, R125): SetDateTime with the fields, its boolean discarded; `n` is the
number of draws taken by then. -/
def storeParsed (f : Fields) (n : Nat) (s : State) : State :=
  { s with x := (setDateTime f s.x).1, draws := n }

/-- The text memory with fresh unknown bytes at the addresses below `k` (70_reset_and_hazards.md R170): address `a` gets
the low byte of draw `n + a`. -/
def freshTxt (d : DrawStream) (n : Nat) : Nat → Memory → Memory
  | 0, m => m
  | k + 1, m => Memory.write (freshTxt d n k m) k ((d (n + k)).setWidth 8)

/-- The registers as fresh unknown bytes (R170): `x[i]` is the low byte of draw `n + i`. -/
def freshRegs (d : DrawStream) (n : Nat) : DateTime where
  hun := (d n).setWidth 8
  sec := (d (n + 1)).setWidth 8
  min := (d (n + 2)).setWidth 8
  hr := (d (n + 3)).setWidth 8
  day := (d (n + 4)).setWidth 8
  mon := (d (n + 5)).setWidth 8
  yr := (d (n + 6)).setWidth 8
  wd := (d (n + 7)).setWidth 8

/-- Reset (R170, 10_state.md R31): "a model takes their values after every reset as fresh unknowns": 8 draws for `x`, 64
for `TXT`, one for the response register; the interface is idle; a command in flight gets no response.
notes/assumptions/9.md. -/
def takeReset (d : DrawStream) (s : State) : State :=
  { s with
    x := freshRegs d s.draws
    txt := freshTxt d (s.draws + 8) Config.txtLen []
    busy := false
    rspValid := false
    rsp := d (s.draws + 72)
    draws := s.draws + 73 }

end Sys2Proof.Machine
end

