-- ==== Sys2Proof/Machine/Buffer.lean ====
section
/-! DEFINITION. The DateTime buffer commands SETDT, LDDT and RDDT (41_buffer.md). -/

namespace Sys2Proof.Machine

/-- The operands of SETDT as the integers they are, zero-extended (30_encoding.md R62). -/
def setdtFields (year : BitVec 16) (month day wd hour min sec hun : Byte) : Fields where
  year := year.toNat
  month := month.toNat
  day := day.toNat
  wd := wd.toNat
  hour := hour.toNat
  min := min.toNat
  sec := sec.toNat
  hun := hun.toNat

/-- SETDT: `ok <- SetDateTime(...); respond(0, ok, 0x00)` (R94). -/
def execSetdt (year : BitVec 16) (month day wd hour min sec hun : Byte) (s : State) :
    Host.Outcome State Fault Refusal :=
  let stored := setDateTime (setdtFields year month day wd hour min sec hun) s.x
  .next (respond stored.2 0x00#8 { s with x := stored.1 })

/-- LDDT idx, b: `x[idx] <- b`, neither validated nor encoded (R95). -/
def execLddt (r : Reg) (b : Byte) (s : State) : Host.Outcome State Fault Refusal :=
  .next (respond false 0x00#8 (writeReg r b s))

/-- RDDT idx: `respond(0, 0, x[idx])`, the byte raw (R96). -/
def execRddt (r : Reg) (s : State) : Host.Outcome State Fault Refusal :=
  .next (respond false (readReg s r) s)

end Sys2Proof.Machine
end

