-- ==== Sys2Proof/Machine/Codec.lean ====
section
/-! DEFINITION. The byte codec commands ENC and DEC (40_codec.md): pure, no state but the response. -/

namespace Sys2Proof.Machine

/-- ENC b: `respond(0, 0, enc(b))` (R85). -/
def execEnc (b : Byte) (s : State) : Host.Outcome State Fault Refusal :=
  .next (respond false (enc b.toNat) s)

/-- DEC b: `respond(0, 0, dec(b))` (R86). -/
def execDec (b : Byte) (s : State) : Host.Outcome State Fault Refusal :=
  .next (respond false (dec b) s)

end Sys2Proof.Machine
end

