-- ==== Sys2Proof/Machine/Parsers.lean ====
section
/-! DEFINITION. The calendar text parsers PISO and PHTTP (43_parsers.md): the text is TXT from address 0; the response is
0x0000 whatever SetDateTime returned (R128). -/

namespace Sys2Proof.Machine

/-- PISO (R124). -/
def execPiso (s : State) : Host.Outcome State Fault Refusal :=
  let parsed := isoFields Config.draw s.draws (readTxt s)
  .next (respond false 0x00#8 (storeParsed parsed.1 parsed.2 s))

/-- PHTTP (R125). -/
def execPhttp (s : State) : Host.Outcome State Fault Refusal :=
  let parsed := httpFields Config.draw s.draws (readTxt s)
  .next (respond false 0x00#8 (storeParsed parsed.1 parsed.2 s))

end Sys2Proof.Machine
end

