-- ==== Sys2Proof/Machine/Text.lean ====
section
/-! DEFINITION. The text memory commands WRTXT and RDTXT (42_text_access.md). -/

namespace Sys2Proof.Machine

/-- WRTXT addr, b: `TXT[addr] <- b`, the byte unchecked (R110). -/
def execWrtxt (addr : TxtAddr) (b : Byte) (s : State) : Host.Outcome State Fault Refusal :=
  .next (respond false 0x00#8 (writeTxt addr b s))

/-- RDTXT addr: `respond(0, 0, TXT[addr])` (R111). -/
def execRdtxt (addr : TxtAddr) (s : State) : Host.Outcome State Fault Refusal :=
  .next (respond false (readTxt s addr) s)

end Sys2Proof.Machine
end

