-- ==== Sys2Proof/Machine/Dispatch.lean ====
section
/-! DEFINITION. One arm per command: its meaning (30_encoding.md R63). -/

namespace Sys2Proof.Machine

/-- What a legal command does. -/
def exec (i : Instr) (s : State) : Host.Outcome State Fault Refusal :=
  match i with
  | .enc b => Sys2Proof.Machine.execEnc b s
  | .dec b => Sys2Proof.Machine.execDec b s
  | .setdt year month day wd hour min sec hun => Sys2Proof.Machine.execSetdt year month day wd hour min sec hun s
  | .lddt r b => Sys2Proof.Machine.execLddt r b s
  | .rddt r => Sys2Proof.Machine.execRddt r s
  | .piso => Sys2Proof.Machine.execPiso s
  | .phttp => Sys2Proof.Machine.execPhttp s
  | .wrtxt addr b => Sys2Proof.Machine.execWrtxt addr b s
  | .rdtxt addr => Sys2Proof.Machine.execRdtxt addr s

end Sys2Proof.Machine
end

