-- ==== Sys2Proof/Machine/Channel.lean ====
section
/-! DEFINITION. The command and response channels (30_encoding.md R72), at two grains: `takeInput` is a whole command from
acceptance to response (00_scope.md R6), what Step.lean's step is; `edge` is one rising edge of `clk`, pins as arguments.
The latency is nobody's choice here: each edge is told whether a command in flight is answered at it (R178). -/

namespace Sys2Proof.Machine

/-- What a command word does between acceptance and response: the decoded command's meaning, or `raise Illegal`
(30_encoding.md R64: the check comes before any part of the command's rule). -/
def runWord (cw : CmdWord) (s : State) : Host.Outcome State Fault Refusal :=
  match decode cw with
  | .ok i => exec i s
  | .error _ => .next (raiseIllegal s)

/-- The interface with no command in flight and no response on show: `cmd_ready` = 1 unless `rst` is (R72, R170). -/
def ready (s : State) : Bool := !s.busy && !s.rspValid

/-- The state when a command has been accepted and its response not yet given (10_state.md R30). -/
def inFlight (s : State) : State := { s with busy := true, rspValid := false }

/-- The cycle in which the response word is presented (R72). -/
def presenting (s : State) : State := { s with busy := false, rspValid := true }

/-- The cycle after it, or idle (R72). -/
def idle (s : State) : State := { s with busy := false, rspValid := false }

/-- A next state changed by `f`; a stop as it is. -/
def mapNext (f : State → State) : Host.Outcome State Fault Refusal → Host.Outcome State Fault Refusal
  | .next t => .next (f t)
  | .fault r => .fault r
  | .refused r => .refused r

/-- The input pins (R72); `clk` is the edge itself. -/
structure PinsIn where
  rst : Bool
  cmdValid : Bool
  cmd : CmdWord
deriving DecidableEq, Repr

/-- The output pins (R72). -/
structure PinsOut where
  cmdReady : Bool
  rspValid : Bool
  rsp : RspWord
deriving DecidableEq, Repr

/-- The output pins in a cycle with that level on `rst`: while `rst` = 1, `cmd_ready` = 0 and `rsp_valid` = 0 (R170). -/
def outputs (rst : Bool) (s : State) : PinsOut where
  cmdReady := !rst && ready s
  rspValid := !rst && s.rspValid
  rsp := s.rsp

/-- One rising edge of `clk` (R72, R170). `done` says whether a command in flight is answered at this edge: at an edge
after the one that accepted it, so at least one cycle later (notes/assumptions/11.md). A command changes state at the edge
that accepts it; R72: the change is "not visible through any signal except in the responses of later commands"
(notes/assumptions/13.md). -/
def edge (pins : PinsIn) (done : Bool) (s : State) : Host.Outcome State Fault Refusal :=
  if pins.rst then .next (takeReset Config.draw s)
  else if s.busy then .next (if done then presenting s else s)
  else if s.rspValid then .next (idle s)
  else if pins.cmdValid then mapNext inFlight (runWord pins.cmd s)
  else .next s

/-- No command and no reset presented. -/
def quietPins : PinsIn := ⟨false, false, 0#80⟩

/-- Several edges, one after another, each with its pins and its `done`. -/
def edges : List (PinsIn × Bool) → State → Host.Outcome State Fault Refusal
  | [], s => .next s
  | (pins, done) :: rest, s =>
    match edge pins done s with
    | .next t => edges rest t
    | .fault r => .fault r
    | .refused r => .refused r

/-- One step at the transaction level (R6): the host's next input, whole. A command word is held until the block is
ready, accepted, run and answered: the step ends in the cycle that presents the response. `rst` is a reset. With
nothing presented the block does nothing of its own: an idle edge, at which a response on show ends and one still owed is
given. notes/assumptions/10.md. -/
def takeInput (s : State) : Host.Outcome State Fault Refusal :=
  match s.inputs with
  | [] => edge quietPins true s
  | .rst :: rest => .next (takeReset Config.draw { s with inputs := rest })
  | .cmd cw :: rest => mapNext presenting (runWord cw (idle { s with inputs := rest }))

/-- The host presents `cw` next, before anything else it has to present. -/
def presentNext (cw : CmdWord) (s : State) : State := { s with inputs := .cmd cw :: s.inputs }

end Sys2Proof.Machine
end

