-- ==== Sys2Proof/Machine/Step.lean ====
section
/-! DEFINITION. One step of the machine, and how a command word comes to be the one it runs. -/

namespace Sys2Proof.Machine

/-- One step: the host's next input (00_scope.md R6). -/
def step (s : State) : Host.Outcome State Fault Refusal := takeInput s

/-- `s` with the command word whose bits are `w` (as spec/opcode_table.json numbers them) presented next. A program comes
from outside, one command word at a time: notes/assumptions/4.md. -/
def State.withFetchWord (s : State) (nbits w : Nat) : State := presentNext (tableWord nbits w) s

end Sys2Proof.Machine
end

