-- ==== Sys2Proof/Machine/Assembler.lean ====
section
/-! DEFINITION. The assembler (30_encoding.md R70, R71): from a line's characters to abstract syntax, and from there to
commands. It carries no semantics of the block (decision D24); details R70 leaves open: notes/assumptions/16.md. -/

namespace Sys2Proof.Machine

/-- The number an operand stands for: itself, a character's code (00_scope.md R12), a register's index (R70). -/
def operandValue : AsmOperand → Nat
  | .num n => n
  | .chr c => c.toNat
  | .reg r => r.idx.toNat

/-- The command of a mnemonic and its operands, most significant field first (R70); none on a wrong count. -/
def buildInstr : Mnemonic → List Nat → Option Instr
  | .enc, [b] => some (.enc (.ofNat 8 b))
  | .dec, [b] => some (.dec (.ofNat 8 b))
  | .setdt, [year, month, day, wd, hour, min, sec, hun] =>
      some (.setdt (.ofNat 16 year) (.ofNat 8 month) (.ofNat 8 day) (.ofNat 8 wd) (.ofNat 8 hour) (.ofNat 8 min)
        (.ofNat 8 sec) (.ofNat 8 hun))
  | .lddt, [r, b] => some (.lddt (.ofIdx (.ofNat 3 r)) (.ofNat 8 b))
  | .rddt, [r] => some (.rddt (.ofIdx (.ofNat 3 r)))
  | .piso, [] => some .piso
  | .phttp, [] => some .phttp
  | .wrtxt, [a, b] => some (.wrtxt (.ofNat 6 a) (.ofNat 8 b))
  | .rdtxt, [a] => some (.rdtxt (.ofNat 6 a))
  | _, _ => none

/-- `WRTXT a, 'c0'; WRTXT a+1, 'c1'; ...` in ascending address order (R71). -/
def textCommands : Nat → List Char → List Instr
  | _, [] => []
  | a, c :: rest => .wrtxt (.ofNat 6 a) (.ofNat 8 c.toNat) :: textCommands (a + 1) rest

/-- `RDDT 0` to `RDDT 7` (R71). -/
def readAll : List Instr :=
  [.rddt .hun, .rddt .sec, .rddt .min, .rddt .hr, .rddt .day, .rddt .mon, .rddt .yr, .rddt .wd]

/-- The commands a line stands for; none is an assembly error (R70, R71). -/
def assemble (l : AsmLine) : Option (List Instr) :=
  if l.wellFormed then
    match l with
    | .cmd m os => (buildInstr m (os.map operandValue)).map ([·])
    | .txtstr a text => some (textCommands a text)
    | .rdall => some readAll
  else none

/-- The mnemonics as they are written (R70). -/
def mnemonicOf : List Char → Option Mnemonic
  | ['E', 'N', 'C'] => some .enc
  | ['D', 'E', 'C'] => some .dec
  | ['S', 'E', 'T', 'D', 'T'] => some .setdt
  | ['L', 'D', 'D', 'T'] => some .lddt
  | ['R', 'D', 'D', 'T'] => some .rddt
  | ['P', 'I', 'S', 'O'] => some .piso
  | ['P', 'H', 'T', 'T', 'P'] => some .phttp
  | ['W', 'R', 'T', 'X', 'T'] => some .wrtxt
  | ['R', 'D', 'T', 'X', 'T'] => some .rdtxt
  | _ => none

/-- The register names (R70). -/
def regOf : List Char → Option Reg
  | ['H', 'U', 'N'] => some .hun
  | ['S', 'E', 'C'] => some .sec
  | ['M', 'I', 'N'] => some .min
  | ['H', 'R'] => some .hr
  | ['D', 'A', 'Y'] => some .day
  | ['M', 'O', 'N'] => some .mon
  | ['Y', 'R'] => some .yr
  | ['W', 'D'] => some .wd
  | _ => none

/-- A digit of a base up to 16. -/
def digitOf (base : Nat) (c : Char) : Option Nat :=
  let n := c.toNat
  let v := if 0x30 ≤ n ∧ n ≤ 0x39 then n - 0x30
    else if 0x41 ≤ n ∧ n ≤ 0x46 then n - 0x41 + 10
    else if 0x61 ≤ n ∧ n ≤ 0x66 then n - 0x61 + 10
    else 16
  if v < base then some v else none

/-- Digits after the value `acc` of those before them. -/
def digitsValue (base acc : Nat) : List Char → Option Nat
  | [] => some acc
  | c :: rest => (digitOf base c).bind fun v => digitsValue base (base * acc + v) rest

/-- A decimal or a `0x` hexadecimal number (R70). -/
def numberOf : List Char → Option Nat
  | [] => none
  | '0' :: 'x' :: c :: rest => digitsValue 16 0 (c :: rest)
  | c :: rest => digitsValue 10 0 (c :: rest)

/-- The pieces of a line. -/
inductive Token where
  | word (w : List Char)
  | chr (c : Char)
  | text (t : List Char)
  | comma
deriving DecidableEq, Repr

/-- The word read so far (its characters last first), as a token when there is one. -/
def flush (w : List Char) : List Token := if w = [] then [] else [.word w.reverse]

/-- The pieces of a line: `w` is the word being read, last character first; `t` is the quoted text being read, when inside
one. `;` (59) starts a comment; `'` is 39, `"` is 34. DESIGN CHOICE: a quote ends a word too, so no blank is needed between
a mnemonic and a quoted operand (notes/assumptions/16.md). -/
def lex (w : List Char) (t : Option (List Char)) : List Char → Option (List Token)
  | [] => if t = none then some (flush w) else none
  | c :: rest =>
    match t with
    | some u => if c.toNat = 34 then (lex [] none rest).map (.text u.reverse :: ·) else lex [] (some (c :: u)) rest
    | none =>
      if c.toNat = 59 then some (flush w)
      else if c.toNat = 34 then (lex [] (some []) rest).map (flush w ++ ·)
      else if c.toNat = 39 then
        match rest with
        | ch :: q :: more => if q.toNat = 39 then (lex [] none more).map (flush w ++ .chr ch :: ·) else none
        | _ => none
      else if c = ',' then (lex [] none rest).map (flush w ++ .comma :: ·)
      else if c = ' ' ∨ c = '\t' then (lex [] none rest).map (flush w ++ ·)
      else lex (c :: w) none rest

/-- One operand (R70): a number, a quoted character, or a register name. -/
def operandOf : Token → Option AsmOperand
  | .chr c => some (.chr c)
  | .word w =>
    match regOf w with
    | some r => some (.reg r)
    | none => (numberOf w).map .num
  | .text _ => none
  | .comma => none

/-- Operands separated by commas. -/
def operandsOf : List Token → Option (List AsmOperand)
  | [] => some []
  | [o] => (operandOf o).map ([·])
  | o :: .comma :: p :: rest => do some ((← operandOf o) :: (← operandsOf (p :: rest)))
  | _ :: _ :: _ => none

/-- One line of text (R70, R71): none where it is no line of the syntax, the empty list where it holds no command. DESIGN
CHOICE: the start address of a TXTSTR is a decimal or hexadecimal number, no quoted character (notes/assumptions/16.md). -/
def parseLine (line : List Char) : Option (List AsmLine) :=
  match lex [] none line with
  | none => none
  | some [] => some []
  | some [.word ['R', 'D', 'A', 'L', 'L']] => some [.rdall]
  | some [.word ['T', 'X', 'T', 'S', 'T', 'R'], .text t] => some [.txtstr 0 t]
  | some [.word ['T', 'X', 'T', 'S', 'T', 'R'], .word a, .comma, .text t] => (numberOf a).map fun n => [.txtstr n t]
  | some (.word m :: os) => do some [.cmd (← mnemonicOf m) (← operandsOf os)]
  | some _ => none

end Sys2Proof.Machine
end

