-- ==== Sys2Proof/Safety.lean ====
section
/-! DEFINITION. What claims about BCDCAL are said in terms of: the states reset may leave, the invariant every step keeps,
the domain invariant of the buffer (10_state.md R22), and the responses of a list of commands (70_reset_and_hazards.md
R180). -/

namespace Sys2Proof.Machine

/-- The states the spec allows right after reset (10_state.md R31, R170): the interface idle, any registers, any text. -/
def AfterReset (s : State) : Prop :=
  Memory.wf s.txt = true ∧ s.busy = false ∧ s.rspValid = false

/-- The invariant of every step: the text memory is in canonical form inside the 64 addresses, and no response is on show
while one is owed (30_encoding.md R72: `rsp_valid` is 1 once per accepted command). -/
def State.Inv (s : State) : Prop :=
  Memory.wf s.txt = true ∧ (s.busy && s.rspValid) = false

/-- The byte is valid for the register (10_state.md R21, last column): valid BCD, its decoded value in the field's domain. -/
def Reg.validByte (r : Reg) (b : Byte) : Bool :=
  isBcd b &&
    let v : Int := 10 * hi b + lo b
    match r with
    | .hun => hunOk v
    | .sec => secOk v
    | .min => minOk v
    | .hr => hourOk v
    | .day => dayOk v
    | .mon => monthOk v
    | .yr => within 0 99 v
    | .wd => wdOk v

/-- The command word is illegal, said by the formats (30_encoding.md R64, R61, R63): (a) its opcode is none of the nine, or
(b) a bit marked `0` in its format is 1. -/
def IllegalByRule (cw : CmdWord) : Prop :=
  let op := (cw.extractLsb' 72 8).toNat
  op ∉ [0x01, 0x02, 0x10, 0x11, 0x12, 0x20, 0x21, 0x30, 0x31] ∨
  (op = 0x01 ∨ op = 0x02) ∧ cw.extractLsb' 0 64 ≠ 0#64 ∨
  op = 0x11 ∧ (cw.extractLsb' 67 5 ≠ 0#5 ∨ cw.extractLsb' 0 56 ≠ 0#56) ∨
  op = 0x12 ∧ (cw.extractLsb' 67 5 ≠ 0#5 ∨ cw.extractLsb' 0 64 ≠ 0#64) ∨
  (op = 0x20 ∨ op = 0x21) ∧ cw.extractLsb' 0 72 ≠ 0#72 ∨
  op = 0x30 ∧ (cw.extractLsb' 70 2 ≠ 0#2 ∨ cw.extractLsb' 0 56 ≠ 0#56) ∨
  op = 0x31 ∧ (cw.extractLsb' 70 2 ≠ 0#2 ∨ cw.extractLsb' 0 64 ≠ 0#64)

/-- The step that takes `cw` answers 0x8000 and changes nothing but the channel (R64, 60_exceptions.md R151). -/
def AnsweredIllegal (cw : CmdWord) (s : State) : Prop :=
  step (presentNext cw s) = .next { s with busy := false, rspValid := true, rsp := 0x8000#16 }

/-- The source's invariant of the buffer (10_state.md R22): every register decodes into its domain. The hardware does not
enforce it. -/
def DateTime.InDomain (x : DateTime) : Prop := ∀ r : Reg, Reg.validByte r (x.get r) = true

/-- The field of a register is in its domain (41_buffer.md R90). -/
def Fields.inDomain (f : Fields) : Reg → Bool
  | .yr => yearOk f.year
  | .mon => monthOk f.month
  | .day => dayOk f.day
  | .wd => wdOk f.wd
  | .hr => hourOk f.hour
  | .min => minOk f.min
  | .sec => secOk f.sec
  | .hun => hunOk f.hun

/-- The byte a field in domain is stored as (R90, last column; R93 for the year). -/
def Fields.byteFor (f : Fields) : Reg → Byte
  | .yr => enc (f.year % 100).toNat
  | .mon => enc f.month.toNat
  | .day => enc f.day.toNat
  | .wd => enc f.wd.toNat
  | .hr => enc f.hour.toNat
  | .min => enc f.min.toNat
  | .sec => enc f.sec.toNat
  | .hun => enc f.hun.toNat

/-- The order of validation (R90). -/
def validationOrder : List Reg := [.yr, .mon, .day, .wd, .hr, .min, .sec, .hun]

/-- The place of a register's field in the order of validation, 1 to 8 (R90, R92). -/
def Reg.place : Reg → Nat
  | .yr => 1 | .mon => 2 | .day => 3 | .wd => 4 | .hr => 5 | .min => 6 | .sec => 7 | .hun => 8

/-- The number of the first field out of domain in the order of validation, 9 if there is none (R92's `k`). -/
def Fields.firstInvalid (f : Fields) : Nat := validationOrder.findIdx (fun r => !f.inDomain r) + 1

/-- The field of the register and all before it in the order of validation are in domain. -/
def Fields.passed (f : Fields) (r : Reg) : Bool :=
  (validationOrder.take (Reg.place r)).all f.inDomain

/-- SetDateTime's table (R90, R91): check each field in turn, store its byte in its register, stop at the first field out
of domain. -/
def storeInOrder : List (Bool × Reg × Byte) → DateTime → DateTime × Bool
  | [], x => (x, true)
  | (ok, r, b) :: rest, x => if ok then storeInOrder rest (x.set r b) else (x, false)

/-- The byte that shows a number below 100 in hexadecimal digits (40_codec.md R80). -/
def bcd (n : Nat) : Byte := BitVec.ofNat 8 (16 * (n / 10) + n % 10)

/-- Two text bytes from `a` on are two digits (43_parsers.md R120). -/
def digitsAt (t : TxtAddr → Byte) (a : TxtAddr) : Bool := isDigit (t a) && isDigit (t (a + 1))

/-- The number two digits from `a` on show: the first is the tens digit (20_memory.md R41). -/
def numberAt (t : TxtAddr → Byte) (a : TxtAddr) : Nat := 10 * ((t a).toNat - 0x30) + ((t (a + 1)).toNat - 0x30)

/-- The byte whose two hexadecimal digits are the two decimal digits from `a` on (43_parsers.md R130). -/
def digitsByte (t : TxtAddr → Byte) (a : TxtAddr) : Byte := (t a).extractLsb' 0 4 ++ (t (a + 1)).extractLsb' 0 4

/-- Three text bytes from `a` on. -/
def threeAt (t : TxtAddr → Byte) (a : TxtAddr) : List Byte := [t a, t (a + 1), t (a + 2)]

/-- The code of a character (00_scope.md R12). -/
def charByte (c : Char) : Byte := BitVec.ofNat 8 c.toNat

/-- The weekday names, 0 = Sunday to 6 = Saturday (43_parsers.md R130, first table). -/
def weekdayNames : List (List Char) :=
  [['S', 'u', 'n'], ['M', 'o', 'n'], ['T', 'u', 'e'], ['W', 'e', 'd'], ['T', 'h', 'u'], ['F', 'r', 'i'], ['S', 'a', 't']]

/-- The month names, January first (43_parsers.md R130, second table). -/
def monthNames : List (List Char) :=
  [['J', 'a', 'n'], ['F', 'e', 'b'], ['M', 'a', 'r'], ['A', 'p', 'r'], ['M', 'a', 'y'], ['J', 'u', 'n'],
   ['J', 'u', 'l'], ['A', 'u', 'g'], ['S', 'e', 'p'], ['O', 'c', 't'], ['N', 'o', 'v'], ['D', 'e', 'c']]

/-- The letters from `a` on are the name of weekday `k`. -/
def weekdayAt (t : TxtAddr → Byte) (a : TxtAddr) (k : Nat) : Prop :=
  (weekdayNames[k]?).map (·.map charByte) = some (threeAt t a)

/-- The letters from `a` on are the name of month `m`, 1 to 12. -/
def monthAt (t : TxtAddr → Byte) (a : TxtAddr) (m : Nat) : Prop :=
  1 ≤ m ∧ (monthNames[m - 1]?).map (·.map charByte) = some (threeAt t a)

/-- A name as the HTTP-date parser knows it (43_parsers.md R122, R123): its first letter, the letters after it that are
tested (`none` for one that is not), and its number. -/
structure NameRow where
  first : Char
  rest : List (Option Char)
  value : Int
deriving DecidableEq, Repr

/-- The weekday names by what tells them apart (R122; the numbers: notes/assumptions/14.md). -/
def weekdayRows : List NameRow :=
  [⟨'S', [some 'u'], 0⟩, ⟨'M', [none], 1⟩, ⟨'T', [some 'u'], 2⟩, ⟨'W', [none], 3⟩, ⟨'T', [some 'h'], 4⟩,
   ⟨'F', [none], 5⟩, ⟨'S', [some 'a'], 6⟩]

/-- The month names by what tells them apart, but December, which is tested for by nothing (R123; the numbers:
notes/assumptions/14.md). -/
def monthRows : List NameRow :=
  [⟨'J', [some 'a', some 'n'], 1⟩, ⟨'F', [none, none], 2⟩, ⟨'M', [none, some 'r'], 3⟩, ⟨'A', [some 'p', none], 4⟩,
   ⟨'M', [none, some 'y'], 5⟩, ⟨'J', [some 'u', some 'n'], 6⟩, ⟨'J', [some 'u', some 'l'], 7⟩,
   ⟨'A', [some 'u', none], 8⟩, ⟨'S', [none, none], 9⟩, ⟨'O', [none, none], 10⟩, ⟨'N', [none, none], 11⟩]

/-- The text byte is the letter, or the letter is not tested. -/
def letterFits : Option Char → Byte → Bool
  | none, _ => true
  | some c, b => decide (b = charByte c)

/-- The numbers a name may be decoded to (R122, R123): that of the row whose tested letters are there, else those of all
rows with the first letter, else the fallback. -/
def namedBy (rows : List NameRow) (fallback : Int) (c0 : Byte) (more : List Byte) : List Int :=
  let candidates := rows.filter fun r => decide (c0 = charByte r.first)
  let exact := candidates.filter fun r => (r.rest.zip more).all fun e => letterFits e.1 e.2
  if candidates = [] then [fallback]
  else if exact = [] then candidates.map NameRow.value
  else exact.map NameRow.value

/-- How many draws a lookup takes among these numbers: none when only one is left (R122, R123). -/
def drawsAmong (values : List Int) : Nat := if values.length = 1 then 0 else 1

/-- How many draws a chunk takes (43_parsers.md R120, R121). -/
def drawsAt (t : TxtAddr → Byte) (a : TxtAddr) : Nat := if digitsAt t a then 0 else 1

/-- The value of a chunk: `base` and its number, or the draw `n` where it is not two digits (R120 with base 0, R121 with
base 2000). -/
def chunkAt (base : Int) (n : Nat) (t : TxtAddr → Byte) (a : TxtAddr) : Int :=
  if digitsAt t a then base + numberAt t a else (Config.draw n).toInt

/-- The response words of a list of commands given one after another, and the state they end in (R180); none if a step
stops. -/
def respondAll : List CmdWord → State → Option (List RspWord × State)
  | [], s => some ([], s)
  | cw :: rest, s =>
    match step (presentNext cw s) with
    | .next t => (respondAll rest t).map fun r => (t.rsp :: r.1, r.2)
    | .fault _ => none
    | .refused _ => none

end Sys2Proof.Machine
end

