-- ==== Sys2Proof/Certificates/Slice0/Obligations.lean ====
section
/-! DEFINITION. The statements for the provers. Each docstring says which sentence of the spec it formalises; where a
statement rests on a choice of the model or an inference of the spec, it says so. -/

open Sys2Proof Sys2Proof.Machine

/-! ### Encoding -/

/-- Command words written out in 95_test_vectors.md (V1, V2, V4 to V6) from the formats of 30_encoding.md R61 decode to
the commands they stand for, one at least of every format. -/
def Obligations.SpecWordsDecode : Prop :=
  decode 0x012D0000000000000000#80 = .ok (.enc 45#8) ∧
  decode 0x02450000000000000000#80 = .ok (.dec 0x45#8) ∧
  decode 0x1007E5070F0408090A00#80 = .ok (.setdt 2021#16 7#8 15#8 4#8 8#8 9#8 10#8 0#8) ∧
  decode 0x11014500000000000000#80 = .ok (.lddt .sec 0x45#8) ∧
  decode 0x12060000000000000000#80 = .ok (.rddt .yr) ∧
  decode 0x20000000000000000000#80 = .ok .piso ∧
  decode 0x21000000000000000000#80 = .ok .phttp ∧
  decode 0x303FFF00000000000000#80 = .ok (.wrtxt 63#6 0xFF#8) ∧
  decode 0x313F0000000000000000#80 = .ok (.rdtxt 63#6)

/-- Every command, at every value of every operand, is what its encoding decodes to (30_encoding.md R61, R63, R66). -/
def Obligations.DecodeUndoesEncode : Prop := ∀ i : Instr, decode (encode i) = .ok i

/-- A legal word has one meaning: it is the encoding of what it decodes to, so no bit of it is dropped (R61, R66). -/
def Obligations.EncodeUndoesDecode : Prop := ∀ (cw : CmdWord) (i : Instr), decode cw = .ok i → encode i = cw

/-- The two formulations of decoding in 30_encoding.md R66 agree: a word decodes to a command exactly when a row of
opcode_table.json selects it (`cw AND mask = match`), every row that selects it is that command's, and no two rows select
one word. -/
def Obligations.DecodeAgreesWithOpcodeTable : Prop :=
  ∀ cw : CmdWord,
    (legalWord cw = true ↔ ∃ i, decode cw = .ok i) ∧
    (∀ i, decode cw = .ok i → ∀ row ∈ opRows, row.selects cw = true → row.mnemonic = i.mnemonic) ∧
    (∀ r ∈ opRows, ∀ r' ∈ opRows, r.selects cw = true → r'.selects cw = true → r = r')

/-- 30_encoding.md R64: which words are illegal; an illegal word changes no state and is answered 0x8000, before any part
of a command's rule; every other word runs its command; the all-zero and the all-ones word are illegal; a SETDT word never
is, and with an operand out of domain it is answered OK = 0; LDDT, WRTXT, ENC and DEC accept all 256 values of `b`. That the
step runs a legal word with the channel idle and ends in the cycle that presents its response, in a busy state too, is the
model's transaction: notes/assumptions/10.md. -/
def Obligations.IllegalWordsAreAnsweredAndChangeNothing : Prop :=
  (∀ (cw : CmdWord) (s : State), IllegalByRule cw → AnsweredIllegal cw s) ∧
  (∀ (cw : CmdWord) (s : State), ¬ IllegalByRule cw →
    ∃ i, decode cw = .ok i ∧ step (presentNext cw s) = mapNext presenting (exec i (idle s))) ∧
  IllegalByRule 0#80 ∧ IllegalByRule (BitVec.allOnes 80) ∧
  (∀ (cw : CmdWord) (s : State), cw.extractLsb' 72 8 = 0x10#8 → ¬ IllegalByRule cw ∧
    ∃ year month day wd hour min sec hun t, decode cw = .ok (.setdt year month day wd hour min sec hun) ∧
      step (presentNext cw s) = .next t ∧
      ((∃ r, (setdtFields year month day wd hour min sec hun).inDomain r = false) → t.rsp = 0x0000#16)) ∧
  (∀ (b : Byte) (r : Reg) (a : TxtAddr),
    ¬ IllegalByRule (0x01#8 ++ b ++ 0#64) ∧ ¬ IllegalByRule (0x02#8 ++ b ++ 0#64) ∧
    ¬ IllegalByRule (0x11#8 ++ 0#5 ++ r.idx ++ b ++ 0#56) ∧ ¬ IllegalByRule (0x30#8 ++ 0#2 ++ a ++ b ++ 0#56))

/-! ### The byte codec -/

/-- 40_codec.md R80: `enc(d)` for 0 to 99, its nibbles, and the examples. -/
def Obligations.EncPacksTheTwoDigits : Prop :=
  (∀ d : Nat, d ≤ 99 →
    hi (enc d) = d / 10 ∧ lo (enc d) = d % 10 ∧ (enc d).toNat = 16 * (d / 10) + d % 10 ∧
    hi (enc d) ≤ 9 ∧ lo (enc d) ≤ 9) ∧
  enc 0 = 0x00#8 ∧ enc 9 = 0x09#8 ∧ enc 10 = 0x10#8 ∧ enc 45 = 0x45#8 ∧ enc 99 = 0x99#8

/-- 40_codec.md R82: the valid BCD bytes are those with both nibbles at most 9, they are the 100 values of `enc` on 0 to
99, `dec` of one is `10*hi + lo`, at most 99; and the examples. -/
def Obligations.ValidBcdBytesAndTheirValues : Prop :=
  (∀ b : Byte, isBcd b = true ↔ hi b ≤ 9 ∧ lo b ≤ 9) ∧
  (∀ b : Byte, isBcd b = true ↔ ∃ d : Nat, d ≤ 99 ∧ enc d = b) ∧
  (List.range 256).countP (fun n => isBcd (BitVec.ofNat 8 n)) = 100 ∧
  (∀ b : Byte, isBcd b = true → (dec b).toNat = 10 * hi b + lo b ∧ (dec b).toNat ≤ 99) ∧
  dec 0x00#8 = 0#8 ∧ dec 0x09#8 = 9#8 ∧ dec 0x10#8 = 10#8 ∧ dec 0x45#8 = 45#8 ∧ dec 0x99#8 = 99#8

/-- The laws of 40_codec.md section 1: `dec` undoes `enc` on 0 to 99 (the source's property), and, as the spec infers,
`enc` undoes `dec` on the valid BCD bytes and `enc` is strictly increasing on 0 to 99. -/
def Obligations.CodecRoundTripLaws : Prop :=
  (∀ d : Nat, d ≤ 99 → (dec (enc d)).toNat = d) ∧
  (∀ b : Byte, isBcd b = true → enc (dec b).toNat = b) ∧
  (∀ d e : Nat, d < e → e ≤ 99 → (enc d).toNat < (enc e).toNat)

/-- 40_codec.md R85: ENC's encoding, its response in every state (the digits up to 99, ENC_OVER above: free, a function of
the operand alone), nothing else changed, the illegal words of its opcode, and the worked example. -/
def Obligations.EncAnswersTheBcdByte : Prop :=
  (∀ (b : Byte) (s : State),
    decode (0x01#8 ++ b ++ 0#64) = .ok (.enc b) ∧
    exec (.enc b) s = .next { s with rsp := (if b.toNat ≤ 99 then bcd b.toNat else Config.encOver b).setWidth 16 }) ∧
  (∀ (cw : CmdWord) (s : State), cw.extractLsb' 72 8 = 0x01#8 → cw.extractLsb' 0 64 ≠ 0#64 → AnsweredIllegal cw s) ∧
  bcd 0 = 0x00#8 ∧ bcd 99 = 0x99#8 ∧
  (∀ s : State, step (presentNext 0x012D0000000000000000#80 s) =
    .next { s with busy := false, rspValid := true, rsp := 0x0045#16 })

/-- 40_codec.md R86: DEC's encoding, its response in every state (`10*hi + lo` for a valid BCD byte, DEC_NONBCD otherwise:
free, a function of the operand alone), nothing else changed, the illegal words of its opcode, and the worked example. -/
def Obligations.DecAnswersTheNumber : Prop :=
  (∀ (b : Byte) (s : State),
    decode (0x02#8 ++ b ++ 0#64) = .ok (.dec b) ∧
    exec (.dec b) s = .next { s with
      rsp := if hi b ≤ 9 ∧ lo b ≤ 9 then BitVec.ofNat 16 (10 * hi b + lo b) else (Config.decNonBcd b).setWidth 16 }) ∧
  (∀ (cw : CmdWord) (s : State), cw.extractLsb' 72 8 = 0x02#8 → cw.extractLsb' 0 64 ≠ 0#64 → AnsweredIllegal cw s) ∧
  (∀ s : State, exec (.dec 0x00#8) s = .next { s with rsp := 0x0000#16 } ∧
    exec (.dec 0x99#8) s = .next { s with rsp := 0x0063#16 }) ∧
  (∀ s : State, step (presentNext 0x02450000000000000000#80 s) =
    .next { s with busy := false, rspValid := true, rsp := 0x002D#16 })

/-! ### The DateTime buffer -/

/-- 41_buffer.md R91: SetDateTime, for all integers, checks and stores field by field in the order of the table of R90 and
stops at the first field out of domain, nothing rolled back; the byte of a field in domain is valid for its register. -/
def Obligations.SetDateTimeChecksAndStoresInOrder : Prop :=
  ∀ (f : Fields) (x : DateTime),
    setDateTime f x = storeInOrder
      [ (decide (f.year ≥ 2000), .yr, bcd (f.year % 100).toNat),
        (decide (1 ≤ f.month ∧ f.month ≤ 12), .mon, bcd f.month.toNat),
        (decide (1 ≤ f.day ∧ f.day ≤ 31), .day, bcd f.day.toNat),
        (decide (0 ≤ f.wd ∧ f.wd ≤ 6), .wd, bcd f.wd.toNat),
        (decide (0 ≤ f.hour ∧ f.hour ≤ 23), .hr, bcd f.hour.toNat),
        (decide (0 ≤ f.min ∧ f.min ≤ 59), .min, bcd f.min.toNat),
        (decide (0 ≤ f.sec ∧ f.sec ≤ 59), .sec, bcd f.sec.toNat),
        (decide (0 ≤ f.hun ∧ f.hun ≤ 99), .hun, bcd f.hun.toNat) ] x ∧
    ∀ r : Reg, f.inDomain r = true → Reg.validByte r (f.byteFor r) = true

/-- What the spec infers from SetDateTime (41_buffer.md section 2): with `k` the number of the first field out of domain
(9 if none), the result is true exactly when `k = 9`, the registers of the fields before `k` hold their new bytes, and
those from `k` on, the failing one included, are unchanged. -/
def Obligations.SetDateTimePartialMutation : Prop :=
  ∀ (f : Fields) (x : DateTime),
    ((setDateTime f x).2 = true ↔ f.firstInvalid = 9) ∧
    ∀ r : Reg, (setDateTime f x).1.get r = if Reg.place r < f.firstInvalid then f.byteFor r else x.get r

/-- Fields after the first one out of domain are not examined (41_buffer.md section 2): two lists of arguments that agree up
to it leave the same buffer and the same boolean. -/
def Obligations.FieldsAfterTheFirstInvalidPlayNoPart : Prop :=
  ∀ (f g : Fields) (x : DateTime),
    (∀ r : Reg, Reg.place r ≤ f.firstInvalid → f.inDomain r = g.inDomain r ∧ f.byteFor r = g.byteFor r) →
    setDateTime f x = setDateTime g x

/-- 41_buffer.md R93: YR gets the low two decimal digits of a year from 2000 on, which up to 2099 are the offset from 2000; a
year of 2100 or more is in domain; a year below 2000 fails and writes nothing; and the examples. -/
def Obligations.TheYearIsTruncatedToTwoDigits : Prop :=
  (∀ (f : Fields) (x : DateTime), 2000 ≤ f.year → f.inDomain .yr = true ∧
    (setDateTime f x).1.yr = bcd (f.year % 100).toNat ∧ (f.year ≤ 2099 → f.year % 100 = f.year - 2000)) ∧
  (∀ (f : Fields) (x : DateTime), f.year < 2000 → setDateTime f x = (x, false)) ∧
  (∀ (f : Fields) (x : DateTime), (f.year = 2100 → (setDateTime f x).1.yr = 0x00#8) ∧
    (f.year = 2121 → (setDateTime f x).1.yr = 0x21#8) ∧ (f.year = 65535 → (setDateTime f x).1.yr = 0x35#8))

/-- 41_buffer.md R94: SETDT's encoding; it is SetDateTime of its operands and answers the result in OK; its words are never
illegal; what a failure leaves; the corner cases at the bounds; the source's property; and the worked example. -/
def Obligations.SetdtAsItsRuleSays : Prop :=
  (∀ (year : BitVec 16) (month day wd hour min sec hun : Byte) (s : State),
    decode (0x10#8 ++ year ++ month ++ day ++ wd ++ hour ++ min ++ sec ++ hun) =
      .ok (.setdt year month day wd hour min sec hun) ∧
    let f : Fields := { year := year.toNat, month := month.toNat, day := day.toNat, wd := wd.toNat, hour := hour.toNat,
                        min := min.toNat, sec := sec.toNat, hun := hun.toNat }
    exec (.setdt year month day wd hour min sec hun) s = .next { s with
      x := (setDateTime f s.x).1, rsp := if (setDateTime f s.x).2 then 0x4000#16 else 0x0000#16 } ∧
    ((setDateTime f s.x).2 = true ↔ f.firstInvalid = 9) ∧
    (∀ r : Reg, (setDateTime f s.x).1.get r = if Reg.place r < f.firstInvalid then f.byteFor r else s.x.get r) ∧
    (2000 ≤ year.toNat → year.toNat ≤ 2099 → 1 ≤ month.toNat → month.toNat ≤ 12 → 1 ≤ day.toNat → day.toNat ≤ 31 →
      wd.toNat ≤ 6 → hour.toNat ≤ 23 → min.toNat ≤ 59 → sec.toNat ≤ 59 → hun.toNat ≤ 99 →
      (setDateTime f s.x).2 = true ∧ (dec ((setDateTime f s.x).1.get .yr)).toNat = year.toNat - 2000 ∧
      dec ((setDateTime f s.x).1.get .mon) = month ∧ dec ((setDateTime f s.x).1.get .day) = day ∧
      dec ((setDateTime f s.x).1.get .wd) = wd ∧ dec ((setDateTime f s.x).1.get .hr) = hour ∧
      dec ((setDateTime f s.x).1.get .min) = min ∧ dec ((setDateTime f s.x).1.get .sec) = sec ∧
      dec ((setDateTime f s.x).1.get .hun) = hun) ∧
    (year = 1999 → f.firstInvalid = 1) ∧
    (2000 ≤ year.toNat → month = 0 ∨ month = 13 → f.firstInvalid = 2) ∧
    (2000 ≤ year.toNat → 1 ≤ month.toNat → month.toNat ≤ 12 → day = 0 ∨ day = 32 → f.firstInvalid = 3) ∧
    (wd = 7 → f.inDomain .wd = false) ∧ (hour = 24 → f.inDomain .hr = false) ∧ (min = 60 → f.inDomain .min = false) ∧
    (sec = 60 → f.inDomain .sec = false) ∧ (hun = 100 → f.inDomain .hun = false)) ∧
  (∀ cw : CmdWord, cw.extractLsb' 72 8 = 0x10#8 → ¬ IllegalByRule cw) ∧
  (∀ s : State,
    exec (.setdt 2000#16 1#8 1#8 0#8 0#8 0#8 0#8 0#8) s = .next { s with
      x := ⟨0x00#8, 0x00#8, 0x00#8, 0x00#8, 0x01#8, 0x01#8, 0x00#8, 0x00#8⟩, rsp := 0x4000#16 } ∧
    exec (.setdt 2099#16 12#8 31#8 6#8 23#8 59#8 59#8 99#8) s = .next { s with
      x := ⟨0x99#8, 0x59#8, 0x59#8, 0x23#8, 0x31#8, 0x12#8, 0x99#8, 0x06#8⟩, rsp := 0x4000#16 } ∧
    exec (.setdt 2100#16 1#8 1#8 0#8 0#8 0#8 0#8 0#8) s = .next { s with
      x := ⟨0x00#8, 0x00#8, 0x00#8, 0x00#8, 0x01#8, 0x01#8, 0x00#8, 0x00#8⟩, rsp := 0x4000#16 } ∧
    step (presentNext 0x1007E5070F0408090A00#80 s) = .next { s with
      busy := false, rspValid := true, rsp := 0x4000#16
      x := ⟨0x00#8, 0x10#8, 0x09#8, 0x08#8, 0x15#8, 0x07#8, 0x21#8, 0x04#8⟩ })

/-- SETDT with every operand in domain (41_buffer.md R90, R91, R93; 30_encoding.md R69): it answers 0x4000 and all eight
registers hold the new bytes, the year as its low two decimal digits, from 2100 on too; nothing else changes. -/
def Obligations.SetdtStoresAValidDate : Prop :=
  ∀ (year : BitVec 16) (month day wd hour min sec hun : Byte) (s : State),
    2000 ≤ year.toNat → 1 ≤ month.toNat → month.toNat ≤ 12 → 1 ≤ day.toNat → day.toNat ≤ 31 → wd.toNat ≤ 6 →
    hour.toNat ≤ 23 → min.toNat ≤ 59 → sec.toNat ≤ 59 → hun.toNat ≤ 99 →
    exec (.setdt year month day wd hour min sec hun) s = .next { s with
      x := { hun := bcd hun.toNat, sec := bcd sec.toNat, min := bcd min.toNat, hr := bcd hour.toNat,
             day := bcd day.toNat, mon := bcd month.toNat, yr := bcd (year.toNat % 100), wd := bcd wd.toNat }
      rsp := 0x4000#16 }

/-- The source's property (41_buffer.md R94, from its testable properties): for years 2000 to 2099 and every other operand
in domain SETDT succeeds and each field round-trips exactly through `dec`. -/
def Obligations.SetdtFieldsRoundTrip : Prop :=
  ∀ (year : BitVec 16) (month day wd hour min sec hun : Byte) (s : State),
    2000 ≤ year.toNat → year.toNat ≤ 2099 → 1 ≤ month.toNat → month.toNat ≤ 12 → 1 ≤ day.toNat → day.toNat ≤ 31 →
    wd.toNat ≤ 6 → hour.toNat ≤ 23 → min.toNat ≤ 59 → sec.toNat ≤ 59 → hun.toNat ≤ 99 →
    ∃ t, exec (.setdt year month day wd hour min sec hun) s = .next t ∧ t.rsp = 0x4000#16 ∧
      (dec (t.x.get .yr)).toNat = year.toNat - 2000 ∧ dec (t.x.get .mon) = month ∧ dec (t.x.get .day) = day ∧
      dec (t.x.get .wd) = wd ∧ dec (t.x.get .hr) = hour ∧ dec (t.x.get .min) = min ∧ dec (t.x.get .sec) = sec ∧
      dec (t.x.get .hun) = hun

/-- SETDT with some operand out of domain (41_buffer.md section 2, 60_exceptions.md section 1): it completes and answers
0x0000; the registers of the operands before the first one out of domain hold their new bytes, the others their old ones;
nothing else changes. -/
def Obligations.SetdtFailsAtTheFirstInvalidField : Prop :=
  ∀ (year : BitVec 16) (month day wd hour min sec hun : Byte) (s : State),
    (setdtFields year month day wd hour min sec hun).firstInvalid ≠ 9 →
    ∃ x' : DateTime,
      exec (.setdt year month day wd hour min sec hun) s = .next { s with x := x', rsp := 0x0000#16 } ∧
      ∀ r : Reg, x'.get r =
        if Reg.place r < (setdtFields year month day wd hour min sec hun).firstInvalid
        then (setdtFields year month day wd hour min sec hun).byteFor r else s.x.get r

/-- 41_buffer.md R95: LDDT's encoding, its effect in every state (the byte stored as given, every other register and
everything else unchanged, response 0x0000), the broken domain invariant after an invalid byte, the illegal words of its
opcode, and the worked example. -/
def Obligations.LddtStoresTheByteAsGiven : Prop :=
  (∀ (r : Reg) (b : Byte) (s : State),
    decode (0x11#8 ++ 0#5 ++ r.idx ++ b ++ 0#56) = .ok (.lddt r b) ∧
    ∃ x' : DateTime, exec (.lddt r b) s = .next { s with x := x', rsp := 0x0000#16 } ∧
      x'.get r = b ∧ (∀ r' : Reg, r' ≠ r → x'.get r' = s.x.get r') ∧
      (Reg.validByte r b = false → ¬ x'.InDomain)) ∧
  (∀ (cw : CmdWord) (s : State), cw.extractLsb' 72 8 = 0x11#8 →
    (cw.extractLsb' 67 5 ≠ 0#5 ∨ cw.extractLsb' 0 56 ≠ 0#56) → AnsweredIllegal cw s) ∧
  Reg.validByte .day 0x00#8 = false ∧ Reg.validByte .mon 0x13#8 = false ∧ Reg.validByte .wd 0xFF#8 = false ∧
  (∀ s : State, step (presentNext 0x11014500000000000000#80 s) =
    .next { s with busy := false, rspValid := true, rsp := 0x0000#16, x := { s.x with sec := 0x45#8 } })

/-- 41_buffer.md R96: RDDT's encoding, its response in every state (the register's byte raw, written since reset or not),
nothing else changed, the illegal words of its opcode, and the worked example. -/
def Obligations.RddtAnswersTheRawByte : Prop :=
  (∀ (r : Reg) (s : State),
    decode (0x12#8 ++ 0#5 ++ r.idx ++ 0#64) = .ok (.rddt r) ∧
    exec (.rddt r) s = .next { s with rsp := (s.x.get r).setWidth 16 }) ∧
  (∀ (cw : CmdWord) (s : State), cw.extractLsb' 72 8 = 0x12#8 →
    (cw.extractLsb' 67 5 ≠ 0#5 ∨ cw.extractLsb' 0 64 ≠ 0#64) → AnsweredIllegal cw s) ∧
  (∀ s : State, s.x.yr = 0x21#8 → step (presentNext 0x12060000000000000000#80 s) =
    .next { s with busy := false, rspValid := true, rsp := 0x0021#16 })

/-! ### The text memory -/

/-- 42_text_access.md R110: WRTXT's encoding, its effect in every state whose memory is in canonical form (the byte at its
address, every other byte and everything else unchanged, response 0x0000), twice at one address, the illegal words of its
opcode, the worked example, and no effect on a parse from an address that no parser reads. -/
def Obligations.WrtxtWritesOneByte : Prop :=
  (∀ (a : TxtAddr) (b : Byte) (s : State), Memory.wf s.txt = true →
    decode (0x30#8 ++ 0#2 ++ a ++ b ++ 0#56) = .ok (.wrtxt a b) ∧
    ∃ m : Memory, exec (.wrtxt a b) s = .next { s with txt := m, rsp := 0x0000#16 } ∧
      Memory.read m a.toNat = b ∧ (∀ k : Nat, k ≠ a.toNat → Memory.read m k = Memory.read s.txt k) ∧
      ∀ b' : Byte, exec (.wrtxt a b') { s with txt := m, rsp := 0x0000#16 } = exec (.wrtxt a b') s) ∧
  (∀ (cw : CmdWord) (s : State), cw.extractLsb' 72 8 = 0x30#8 →
    (cw.extractLsb' 70 2 ≠ 0#2 ∨ cw.extractLsb' 0 56 ≠ 0#56) → AnsweredIllegal cw s) ∧
  (∀ s : State, Memory.wf s.txt = true → ∃ m : Memory, step (presentNext 0x30003200000000000000#80 s) =
    .next { s with busy := false, rspValid := true, rsp := 0x0000#16, txt := m } ∧ Memory.read m 0 = 0x32#8) ∧
  (∀ (a : TxtAddr) (b : Byte) (s t : State), Memory.wf s.txt = true →
    a.toNat ∈ [4, 13, 19, 22, 25, 28] ∨ 31 ≤ a.toNat → exec (.wrtxt a b) s = .next t →
    ∀ i ∈ [Instr.piso, Instr.phttp], ∃ u v, exec i s = .next u ∧ exec i t = .next v ∧ v.x = u.x ∧ v.rsp = u.rsp)

/-- 42_text_access.md R111: RDTXT's encoding, its response in every state (the byte, written since reset or not), nothing
else changed, the illegal words of its opcode, and the worked example. -/
def Obligations.RdtxtAnswersTheByte : Prop :=
  (∀ (a : TxtAddr) (s : State),
    decode (0x31#8 ++ 0#2 ++ a ++ 0#64) = .ok (.rdtxt a) ∧
    exec (.rdtxt a) s = .next { s with rsp := (Memory.read s.txt a.toNat).setWidth 16 }) ∧
  (∀ (cw : CmdWord) (s : State), cw.extractLsb' 72 8 = 0x31#8 →
    (cw.extractLsb' 70 2 ≠ 0#2 ∨ cw.extractLsb' 0 64 ≠ 0#64) → AnsweredIllegal cw s) ∧
  (∀ s : State, Memory.read s.txt 0 = 0x32#8 → step (presentNext 0x31000000000000000000#80 s) =
    .next { s with busy := false, rspValid := true, rsp := 0x0032#16 })

/-- A read gives the last write to its place, and a write elsewhere does not disturb it (20_memory.md section 7), for the
text memory and for the registers, through two commands one after the other. -/
def Obligations.ReadAfterWriteThroughTheChannel : Prop :=
  (∀ (a a' : TxtAddr) (b : Byte) (s : State), Memory.wf s.txt = true →
    ∃ t u, respondAll [encode (.wrtxt a b), encode (.rdtxt a')] s = some ([0x0000#16, u], t) ∧
      u = (if a' = a then b else readTxt s a').setWidth 16) ∧
  (∀ (r r' : Reg) (b : Byte) (s : State),
    ∃ t u, respondAll [encode (.lddt r b), encode (.rddt r')] s = some ([0x0000#16, u], t) ∧
      u = (if r' = r then b else readReg s r').setWidth 16)

/-! ### The parsers -/

/-- PISO on a text with two digits at each of the six offsets (43_parsers.md R124): SetDateTime is given 2000 and the year's
two digits, the other five numbers, weekday 0 and hundredth 0; the response is 0x0000 whatever it returned; no draw is
taken and nothing else changes. -/
def Obligations.PisoGivesTheSixNumbersToSetDateTime : Prop :=
  ∀ s : State, digitsAt (readTxt s) 2 = true → digitsAt (readTxt s) 5 = true → digitsAt (readTxt s) 8 = true →
    digitsAt (readTxt s) 11 = true → digitsAt (readTxt s) 14 = true → digitsAt (readTxt s) 17 = true →
    exec .piso s = .next { s with
      x := (setDateTime { year := 2000 + (numberAt (readTxt s) 2 : Int), month := numberAt (readTxt s) 5,
                          day := numberAt (readTxt s) 8, wd := 0, hour := numberAt (readTxt s) 11,
                          min := numberAt (readTxt s) 14, sec := numberAt (readTxt s) 17, hun := 0 } s.x).1
      rsp := 0x0000#16 }

/-- What the spec infers for a well-formed ISO8601 text (43_parsers.md section 3): every register is the byte that shows its
two digits, the weekday forced to Sunday and the hundredth to 0; the century and the separators are not looked at. -/
def Obligations.PisoOnAWellFormedText : Prop :=
  ∀ s : State, digitsAt (readTxt s) 2 = true → digitsAt (readTxt s) 5 = true → digitsAt (readTxt s) 8 = true →
    digitsAt (readTxt s) 11 = true → digitsAt (readTxt s) 14 = true → digitsAt (readTxt s) 17 = true →
    1 ≤ numberAt (readTxt s) 5 → numberAt (readTxt s) 5 ≤ 12 → 1 ≤ numberAt (readTxt s) 8 →
    numberAt (readTxt s) 8 ≤ 31 → numberAt (readTxt s) 11 ≤ 23 → numberAt (readTxt s) 14 ≤ 59 →
    numberAt (readTxt s) 17 ≤ 59 →
    exec .piso s = .next { s with
      x := { hun := 0x00#8, sec := digitsByte (readTxt s) 17, min := digitsByte (readTxt s) 14,
             hr := digitsByte (readTxt s) 11, day := digitsByte (readTxt s) 8, mon := digitsByte (readTxt s) 5,
             yr := digitsByte (readTxt s) 2, wd := 0x00#8 }
      rsp := 0x0000#16 }

/-- What the spec infers for a well-formed HTTP-date text, with or without the prefix (43_parsers.md section 3), `p` the
prefix skip: weekday and month by the two tables of names (whose numbers the spec takes from general knowledge:
notes/assumptions/14.md), the other registers the bytes that show their two digits, hundredth 0. -/
def Obligations.PhttpOnAWellFormedText : Prop :=
  ∀ (s : State) (p : TxtAddr) (wd month : Nat), p = (if readTxt s 0 = 0x44#8 then 6 else 0) →
    weekdayAt (readTxt s) p wd → monthAt (readTxt s) (p + 8) month →
    digitsAt (readTxt s) (p + 5) = true → digitsAt (readTxt s) (p + 14) = true → digitsAt (readTxt s) (p + 17) = true →
    digitsAt (readTxt s) (p + 20) = true → digitsAt (readTxt s) (p + 23) = true →
    1 ≤ numberAt (readTxt s) (p + 5) → numberAt (readTxt s) (p + 5) ≤ 31 → numberAt (readTxt s) (p + 17) ≤ 23 →
    numberAt (readTxt s) (p + 20) ≤ 59 → numberAt (readTxt s) (p + 23) ≤ 59 →
    exec .phttp s = .next { s with
      x := { hun := 0x00#8, sec := digitsByte (readTxt s) (p + 23), min := digitsByte (readTxt s) (p + 20),
             hr := digitsByte (readTxt s) (p + 17), day := digitsByte (readTxt s) (p + 5), mon := bcd month,
             yr := digitsByte (readTxt s) (p + 14), wd := bcd wd }
      rsp := 0x0000#16 }

/-- Both parsers complete on every text in every state and have no error channel (43_parsers.md R128): the response is 0x0000,
and only the registers, the response and the count of draws change. -/
def Obligations.ParsersCompleteOnEveryText : Prop :=
  ∀ s : State,
    (∃ x' n, exec .piso s = .next { s with x := x', rsp := 0x0000#16, draws := n }) ∧
    (∃ x' n, exec .phttp s = .next { s with x := x', rsp := 0x0000#16, draws := n })

/-- PISO reads the twelve text bytes of 20_memory.md R45 and nothing else of the text: two texts that agree there leave the
same state but for the text itself. -/
def Obligations.PisoReadsTwelveBytes : Prop :=
  ∀ (s : State) (m : Memory),
    (∀ a ∈ [2, 3, 5, 6, 8, 9, 11, 12, 14, 15, 17, 18], Memory.read m a = Memory.read s.txt a) →
    exec .piso { s with txt := m } = mapNext (fun t => { t with txt := m }) (exec .piso s)

/-- PHTTP reads the text byte at 0 and the fifteen from the prefix skip on of 20_memory.md R45 and nothing else of the text:
two texts that agree there leave the same state but for the text itself. -/
def Obligations.PhttpReadsFifteenOrSixteenBytes : Prop :=
  ∀ (s : State) (m : Memory),
    Memory.read m 0 = Memory.read s.txt 0 →
    (∀ k ∈ [0, 1, 5, 6, 8, 9, 10, 14, 15, 17, 18, 20, 21, 23, 24],
      Memory.read m ((if Memory.read s.txt 0 = 0x44#8 then 6 else 0) + k) =
        Memory.read s.txt ((if Memory.read s.txt 0 = 0x44#8 then 6 else 0) + k)) →
    exec .phttp { s with txt := m } = mapNext (fun t => { t with txt := m }) (exec .phttp s)

/-- The prefix skip (43_parsers.md R126): a text that begins with `D` gives PHTTP what the text without its first six
characters gives it; the five bytes after the `D` are not looked at. -/
def Obligations.LeadingDSkipsSixCharacters : Prop :=
  ∀ (d : DrawStream) (n : Nat) (t u : TxtAddr → Byte), t 0 = 0x44#8 → u 0 ≠ 0x44#8 →
    (∀ k : TxtAddr, k ≤ 24 → u k = t (k + 6)) → httpFields d n t = httpFields d n u

/-- The two lookups always answer a value in domain, whatever the letters and the draws (43_parsers.md R122, R123), so PHTTP
never fails at the weekday or the month. -/
def Obligations.LookupsAnswerInDomain : Prop :=
  ∀ (d : DrawStream) (n : Nat) (c0 c1 c2 : Byte),
    wdOk (wdLookup d n c0 c1).1 = true ∧ monthOk (monLookup d n c0 c1 c2).1 = true

/-- The letters of the lookups (43_parsers.md R122, R123; letters and numbers as the spec infers them): first letters that
no name of the cascade has, lower case included, give Friday and December; `F`, `S`, `O`, `N` months need no other letter;
`M` months look at the third letter only and `A` months at the second only. No draw is taken. -/
def Obligations.LookupFallbacksAndLettersNotExamined : Prop :=
  ∀ (d : DrawStream) (n : Nat) (c0 c1 c2 : Byte),
    (c0 ∉ ['T', 'S', 'M', 'W', 'F'].map charByte → wdLookup d n c0 c1 = (5, n)) ∧
    (c0 ∉ ['J', 'F', 'M', 'A', 'S', 'O', 'N'].map charByte → monLookup d n c0 c1 c2 = (12, n)) ∧
    wdLookup d n (charByte 'M') c1 = (1, n) ∧ wdLookup d n (charByte 'W') c1 = (3, n) ∧
    wdLookup d n (charByte 'F') c1 = (5, n) ∧
    monLookup d n (charByte 'F') c1 c2 = (2, n) ∧ monLookup d n (charByte 'S') c1 c2 = (9, n) ∧
    monLookup d n (charByte 'O') c1 c2 = (10, n) ∧ monLookup d n (charByte 'N') c1 c2 = (11, n) ∧
    monLookup d n (charByte 'M') c1 (charByte 'r') = (3, n) ∧ monLookup d n (charByte 'M') c1 (charByte 'y') = (5, n) ∧
    monLookup d n (charByte 'A') (charByte 'p') c2 = (4, n) ∧ monLookup d n (charByte 'A') (charByte 'u') c2 = (8, n)

/-- Every draw of a lookup admits each of its candidates and no other value (43_parsers.md R122, R123; 00_scope.md R11). The
order of a set and the choice of an index are the model's: notes/assumptions/6.md. -/
def Obligations.LookupDrawsAdmitExactlyTheCandidates : Prop :=
  ∀ (n : Nat) (c1 c2 : Byte) (v : Int),
    (c1 ≠ charByte 'u' → c1 ≠ charByte 'h' →
      ((∃ d, (wdLookup d n (charByte 'T') c1).1 = v) ↔ v ∈ [2, 4])) ∧
    (c1 ≠ charByte 'a' → c1 ≠ charByte 'u' →
      ((∃ d, (wdLookup d n (charByte 'S') c1).1 = v) ↔ v ∈ [0, 6])) ∧
    (¬ (c1 = charByte 'a' ∧ c2 = charByte 'n') → ¬ (c1 = charByte 'u' ∧ c2 = charByte 'n') →
      ¬ (c1 = charByte 'u' ∧ c2 = charByte 'l') →
      ((∃ d, (monLookup d n (charByte 'J') c1 c2).1 = v) ↔ v ∈ [1, 6, 7])) ∧
    (c2 ≠ charByte 'r' → c2 ≠ charByte 'y' →
      ((∃ d, (monLookup d n (charByte 'M') c1 c2).1 = v) ↔ v ∈ [3, 5])) ∧
    (c1 ≠ charByte 'p' → c1 ≠ charByte 'u' →
      ((∃ d, (monLookup d n (charByte 'A') c1 c2).1 = v) ↔ v ∈ [4, 8]))

/-- Draws are independent (00_scope.md R11, 43_parsers.md R129): in a text with no two digits at any of the six offsets of
PISO, the six values are any six elements of INT whatever, one draw each. -/
def Obligations.SixGarbageChunksAreSixIndependentDraws : Prop :=
  ∀ (n : Nat) (t : TxtAddr → Byte) (year month day hour min sec : BitVec 16),
    digitsAt t 2 = false → digitsAt t 5 = false → digitsAt t 8 = false → digitsAt t 11 = false →
    digitsAt t 14 = false → digitsAt t 17 = false →
    ∃ d : DrawStream, isoFields d n t =
      ({ year := year.toInt, month := month.toInt, day := day.toInt, wd := 0, hour := hour.toInt, min := min.toInt,
         sec := sec.toInt, hun := 0 }, n + 6)

/-- A garbage day (95_test_vectors.md P4, 43_parsers.md R120, R124): with every other chunk in domain, the draw decides: from
1 to 31 the parse is complete with that day, otherwise it stops with YR and MON written. It holds for every value of the
draw, and both cases occur for some. The index the draw is read at is the model's: notes/assumptions/5.md. -/
def Obligations.PisoWithAGarbageDay : Prop :=
  (∀ s : State, digitsAt (readTxt s) 2 = true → digitsAt (readTxt s) 5 = true → digitsAt (readTxt s) 8 = false →
    digitsAt (readTxt s) 11 = true → digitsAt (readTxt s) 14 = true → digitsAt (readTxt s) 17 = true →
    1 ≤ numberAt (readTxt s) 5 → numberAt (readTxt s) 5 ≤ 12 → numberAt (readTxt s) 11 ≤ 23 →
    numberAt (readTxt s) 14 ≤ 59 → numberAt (readTxt s) 17 ≤ 59 →
    exec .piso s = .next { s with
      x := if 1 ≤ (Config.draw s.draws).toInt ∧ (Config.draw s.draws).toInt ≤ 31 then
             { hun := 0x00#8, sec := digitsByte (readTxt s) 17, min := digitsByte (readTxt s) 14,
               hr := digitsByte (readTxt s) 11, day := bcd (Config.draw s.draws).toInt.toNat,
               mon := digitsByte (readTxt s) 5, yr := digitsByte (readTxt s) 2, wd := 0x00#8 }
           else { s.x with yr := digitsByte (readTxt s) 2, mon := digitsByte (readTxt s) 5 }
      rsp := 0x0000#16
      draws := s.draws + 1 }) ∧
  (∀ (n : Nat) (c1 c0 : Byte) (g : BitVec 16), (isDigit c1 && isDigit c0) = false →
    ∃ d : DrawStream, chunk2 d n c1 c0 = (g.toInt, n + 1))

/-- A garbage year (43_parsers.md R121, 95_test_vectors.md V5): the draw is the year itself. Below 2000 the parse writes no
register; from 2000 on YR is its low two decimal digits. It holds for every value of the draw, and every value occurs. That
the year is the first draw of the parse is the model's choice (notes/assumptions/12.md), and so is the index it is read at
(5.md). -/
def Obligations.PisoWithAGarbageYear : Prop :=
  (∀ s : State, digitsAt (readTxt s) 2 = false →
    ∃ x' n, exec .piso s = .next { s with x := x', rsp := 0x0000#16, draws := n } ∧
      if 2000 ≤ (Config.draw s.draws).toInt then x'.yr = bcd ((Config.draw s.draws).toInt.toNat % 100) else x' = s.x) ∧
  (∀ (n : Nat) (c1 c0 : Byte) (g : BitVec 16), (isDigit c1 && isDigit c0) = false →
    ∃ d : DrawStream, yearOf d n c1 c0 = (g.toInt, n + 1))

/-- How many draws a command takes (43_parsers.md R129): PISO one for each chunk that is not two digits, at most six; PHTTP
at most seven; every other command none. That a draw is counted in State is the model's form: notes/assumptions/5.md. -/
def Obligations.DrawsOfEachCommand : Prop :=
  ∀ (i : Instr) (s t : State), exec i s = .next t →
    (i = .piso → t.draws = s.draws + [2, 5, 8, 11, 14, 17].countP (fun a => !digitsAt (readTxt s) a)) ∧
    (i = .phttp → s.draws ≤ t.draws ∧ t.draws ≤ s.draws + 7) ∧
    (i ≠ .piso → i ≠ .phttp → t.draws = s.draws)

/-- PISO never computes a weekday (43_parsers.md R131): after it WD is 0x00 or what it was, and HUN likewise, whatever the
text and the draws. -/
def Obligations.PisoForcesSunday : Prop :=
  ∀ s : State, ∃ t, exec .piso s = .next t ∧ (t.x.wd = 0x00#8 ∨ t.x.wd = s.x.wd) ∧ (t.x.hun = 0x00#8 ∨ t.x.hun = s.x.hun)

/-! ### Rules of the whole block -/

/-- 30_encoding.md R69: every command completes in every state, and its response word is the table's; an illegal word's is
0x8000. -/
def Obligations.ResponseOfEachCommand : Prop :=
  (∀ (cw : CmdWord) (s : State), (∀ i, decode cw ≠ .ok i) → ∃ t, step (presentNext cw s) = .next t ∧ t.rsp = 0x8000#16) ∧
  ∀ (i : Instr) (s : State), ∃ t, exec i s = .next t ∧
    t.rsp = match i with
      | .enc b => (enc b.toNat).setWidth 16
      | .dec b => (dec b).setWidth 16
      | .setdt year month day wd hour min sec hun =>
        if validationOrder.all (setdtFields year month day wd hour min sec hun).inDomain then 0x4000#16 else 0x0000#16
      | .rddt r => (s.x.get r).setWidth 16
      | .rdtxt a => (readTxt s a).setWidth 16
      | .lddt _ _ => 0x0000#16
      | .piso => 0x0000#16
      | .phttp => 0x0000#16
      | .wrtxt _ _ => 0x0000#16

/-- 30_encoding.md R68: in the response to any word, in any state, bits 13 to 8 are 0; ILL is 1 exactly when the word is
illegal, and then nothing was done; OK is 1 exactly when the command is SETDT and every operand in domain; DATA is the
result byte of ENC, DEC, RDDT and RDTXT and 0 for every other word. -/
def Obligations.ResponseWordForm : Prop :=
  ∀ (cw : CmdWord) (s : State), ∃ t, step (presentNext cw s) = .next t ∧
    t.rsp.extractLsb' 8 6 = 0#6 ∧
    (t.rsp.extractLsb' 15 1 = 1#1 ↔ ∀ i, decode cw ≠ .ok i) ∧
    (t.rsp.extractLsb' 14 1 = 1#1 ↔ ∃ year month day wd hour min sec hun,
      decode cw = .ok (.setdt year month day wd hour min sec hun) ∧
      ∀ r, (setdtFields year month day wd hour min sec hun).inDomain r = true) ∧
    ((∀ i, decode cw ≠ .ok i) → t.x = s.x ∧ t.txt = s.txt ∧ t.draws = s.draws) ∧
    t.rsp.extractLsb' 0 8 = match decode cw with
      | .error _ => 0#8
      | .ok (.enc b) => enc b.toNat
      | .ok (.dec b) => dec b
      | .ok (.rddt r) => s.x.get r
      | .ok (.rdtxt a) => readTxt s a
      | .ok (.setdt _ _ _ _ _ _ _ _) => 0#8
      | .ok (.lddt _ _) => 0#8
      | .ok .piso => 0#8
      | .ok .phttp => 0#8
      | .ok (.wrtxt _ _) => 0#8

/-- Who writes the registers (10_state.md R23): only SETDT, PISO and PHTTP, and LDDT its one register; and who reads them:
only RDDT: the response and the text after any other command do not depend on them. -/
def Obligations.WhoTouchesTheRegisters : Prop :=
  (∀ (i : Instr) (s t : State) (r : Reg), exec i s = .next t → t.x.get r ≠ s.x.get r →
    i.mnemonic = .setdt ∨ i.mnemonic = .piso ∨ i.mnemonic = .phttp ∨ ∃ b, i = .lddt r b) ∧
  (∀ (i : Instr) (s : State) (x' : DateTime), i.mnemonic ≠ .rddt →
    ∃ t u, exec i s = .next t ∧ exec i { s with x := x' } = .next u ∧ t.rsp = u.rsp ∧ t.txt = u.txt ∧ t.draws = u.draws)

/-- Only WRTXT changes the text memory, and only at its address (10_state.md R28, 20_memory.md R43): after any command every
other byte reads as before. -/
def Obligations.OnlyWrtxtChangesTheText : Prop :=
  ∀ (i : Instr) (s t : State), Memory.wf s.txt = true → exec i s = .next t →
    ∀ a : Nat, Memory.read t.txt a ≠ Memory.read s.txt a → ∃ addr b, i = .wrtxt addr b ∧ a = addr.toNat

/-- No command touches the channel's own state or the host's inputs between acceptance and response: those are the step's
(10_state.md R30, 20_memory.md R47). -/
def Obligations.CommandsLeaveTheChannelAlone : Prop :=
  ∀ (i : Instr) (s : State), ∃ t, exec i s = .next t ∧
    t.busy = s.busy ∧ t.rspValid = s.rspValid ∧ t.inputs = s.inputs

/-- Every step and every clock edge completes (70_reset_and_hazards.md R179, 60_exceptions.md R150): no state, input or pin
makes the block stop or fault. -/
def Obligations.TheBlockNeverStops : Prop :=
  (∀ s : State, ∃ t, step s = .next t) ∧
  (∀ (pins : PinsIn) (done : Bool) (s : State), ∃ t, edge pins done s = .next t)

/-- A step runs the decoded command: with a word that decodes to `i` presented next, the step is exec of `i` in the state
with the channel idle and the word taken, followed by the cycle that presents the response (00_scope.md R6). What stands
around exec is the model's transaction: notes/assumptions/10.md. -/
def Obligations.StepRunsTheDecodedCommand : Prop :=
  ∀ (s : State) (cw : CmdWord) (rest : List HostInput) (i : Instr),
    s.inputs = .cmd cw :: rest → decode cw = .ok i →
    step s = mapNext presenting (exec i (idle { s with inputs := rest }))

/-- With nothing presented the block does nothing of its own (00_scope.md R6): registers, text, response register and draws
stay, for the step and for a clock edge. That they stay also while a response is owed, the edge that gives it included, is
the model's choice: a command has changed them at the edge that accepted it (notes/assumptions/13.md), and a step with
nothing presented is one idle edge, which gives an owed response (notes/assumptions/10.md). -/
def Obligations.NothingPresentedNothingChanges : Prop :=
  (∀ s : State, s.inputs = [] → ∃ t, step s = .next t ∧ t.x = s.x ∧ t.txt = s.txt ∧ t.rsp = s.rsp ∧ t.draws = s.draws) ∧
  (∀ (pins : PinsIn) (done : Bool) (s : State), pins.rst = false → pins.cmdValid = false →
    ∃ t, edge pins done s = .next t ∧ t.x = s.x ∧ t.txt = s.txt ∧ t.rsp = s.rsp ∧ t.draws = s.draws)

/-- State.reset is one of the states the spec allows after reset (10_state.md R31): no command in flight, no response on
show, the interface ready. Its register and text values are the model's choice (notes/assumptions/1.md, 2.md) and are not
stated. -/
def Obligations.ResetLeavesTheInterfaceIdle : Prop :=
  AfterReset State.reset ∧ (outputs false State.reset).cmdReady = true ∧ (outputs false State.reset).rspValid = false

/-- The invariant holds at reset. -/
def Obligations.InvariantHoldsAtReset : Prop := State.reset.Inv

/-- Every step keeps the invariant: the text memory in canonical form within its 64 addresses (20_memory.md R40, R44), no
response on show while one is owed (30_encoding.md R72). -/
def Obligations.EveryStepKeepsTheInvariant : Prop :=
  ∀ s t : State, s.Inv → step s = .next t → t.Inv

/-- Every clock edge, with any pins, keeps the invariant. -/
def Obligations.EveryEdgeKeepsTheInvariant : Prop :=
  ∀ (pins : PinsIn) (done : Bool) (s t : State), s.Inv → edge pins done s = .next t → t.Inv

/-- The source's domain invariant of the buffer (10_state.md R22, 41_buffer.md section 4): every command but LDDT keeps it,
failed SETDT and malformed texts with any draws included, and a SETDT answered OK = 1 establishes it from any buffer. -/
def Obligations.OnlyLddtBreaksTheDomainInvariant : Prop :=
  (∀ (i : Instr) (s t : State), s.x.InDomain → i.mnemonic ≠ .lddt → exec i s = .next t → t.x.InDomain) ∧
  (∀ (i : Instr) (s t : State), i.mnemonic = .setdt → exec i s = .next t → t.rsp = 0x4000#16 → t.x.InDomain)

/-! ### Reset and the channels -/

/-- Reset (70_reset_and_hazards.md R170): after it the interface is idle, no response is on show, and every register and
every text byte is a fresh unknown, not the value before: two states that differ in everything but the draws taken and the
inputs are the same after it. Which draw lands where is the model's: notes/assumptions/9.md. -/
def Obligations.ResetForgetsEverything : Prop :=
  ∀ (s s' : State) (rest : List HostInput), s.inputs = .rst :: rest → s'.inputs = .rst :: rest → s.draws = s'.draws →
    step s = step s' ∧
    ∃ t, step s = .next t ∧ t.busy = false ∧ t.rspValid = false ∧ t.inputs = rest ∧
      (∀ r : Reg, t.x.get r = (Config.draw (s.draws + r.idx.toNat)).setWidth 8) ∧
      (∀ a : TxtAddr, readTxt t a = (Config.draw (s.draws + 8 + a.toNat)).setWidth 8)

/-- While `rst` = 1 (70_reset_and_hazards.md R170): `cmd_ready` and `rsp_valid` are 0 and no command is accepted, whatever the
command pins say; a command in flight is abandoned; with `rst` = 0 again the block is idle and ready. -/
def Obligations.ResetAcceptsNothingAndAbandons : Prop :=
  ∀ (s : State) (pins : PinsIn) (done : Bool), pins.rst = true →
    (outputs true s).cmdReady = false ∧ (outputs true s).rspValid = false ∧
    ∃ t, edge pins done s = .next t ∧ edge { pins with cmdValid := false } done s = .next t ∧
      (outputs false t).cmdReady = true ∧ (outputs false t).rspValid = false

/-- The handshake (30_encoding.md R72): a command is accepted at an edge with `cmd_valid` = 1 and `cmd_ready` = 1; from then on
`cmd_ready` = 0 and `rsp_valid` = 0 while the answer is owed, whatever the command pins say; the edge that answers makes
`rsp_valid` = 1 with `cmd_ready` still 0, and the next edge ends both, whatever the host does. -/
def Obligations.OneCommandInFlightOneCycleOfResponse : Prop :=
  (∀ (cw : CmdWord) (done : Bool) (s : State), (outputs false s).cmdReady = true →
    ∃ t, edge ⟨false, true, cw⟩ done s = .next t ∧ t.busy = true ∧
      (outputs false t).cmdReady = false ∧ (outputs false t).rspValid = false) ∧
  (∀ (pins : PinsIn) (s : State), pins.rst = false → s.busy = true →
    edge pins false s = .next s ∧
    ∃ t u, edge pins true s = .next t ∧ (outputs false t).rspValid = true ∧ (outputs false t).cmdReady = false ∧
      ∀ (pins' : PinsIn) (done' : Bool), pins'.rst = false →
        edge pins' done' t = .next u ∧ (outputs false u).rspValid = false ∧ (outputs false u).cmdReady = true)

/-- The transaction-level step is what the handshake does (30_encoding.md R72: the transaction-level model "replaces all of
this"; 00_scope.md R6): from a ready block, accepting a word, waiting any number of edges with any command pins, and
answering, ends in the state the step gives, for every latency. -/
def Obligations.HandshakeRefinesStep : Prop :=
  ∀ (s : State) (cw : CmdWord) (d : Bool) (waits : List (PinsIn × Bool)) (last : PinsIn),
    ready s = true → (∀ w ∈ waits, w.1.rst = false ∧ w.2 = false) → last.rst = false →
    edges ((⟨false, true, cw⟩, d) :: waits ++ [(last, true)]) s = step (presentNext cw s)

/-- A run (70_reset_and_hazards.md R180, 30_encoding.md R72): every command word, legal or not, gets exactly one response, in
order: a list of words gets a list of responses of its length, and two lists one after the other the two lists of
responses. -/
def Obligations.EveryWordGetsOneResponse : Prop :=
  (∀ (cws : List CmdWord) (s : State), ∃ rs t, respondAll cws s = some (rs, t) ∧ rs.length = cws.length) ∧
  (∀ (cws more : List CmdWord) (s t u : State) (rs rs' : List RspWord),
    respondAll cws s = some (rs, t) → respondAll more t = some (rs', u) → respondAll (cws ++ more) s = some (rs ++ rs', u))

/-! ### The assembler -/

/-- An assembler line is accepted exactly when it has its command's operands and each fits its field (30_encoding.md R70: an
operand too large for its field "is an assembly error, not a truncation"): a number below `2^w` for the widths `w` of R61, a
character by its code, a register name where the field is the 3-bit `idx`; a TXTSTR exactly when it ends inside the 64 bytes
(R71). An accepted character or register name stands for the number it means. That a register name fits no other field and
that a character must be 7-bit are the model's reading: notes/assumptions/16.md. -/
def Obligations.AssemblyErrorsAreTheOperandsThatDoNotFit : Prop :=
  (∀ l : AsmLine, (∃ is, assemble l = some is) ↔
    match l with
    | .cmd m operands =>
      List.Forall₂ (fun (w : Nat) (o : AsmOperand) => match o with
          | .num n => n < 2 ^ w
          | .chr c => c.toNat < 128 ∧ c.toNat < 2 ^ w
          | .reg r => w = 3 ∧ r.idx.toNat < 2 ^ w)
        (match m with
          | .enc => [8]
          | .dec => [8]
          | .setdt => [16, 8, 8, 8, 8, 8, 8, 8]
          | .lddt => [3, 8]
          | .rddt => [3]
          | .piso => []
          | .phttp => []
          | .wrtxt => [6, 8]
          | .rdtxt => [6])
        operands
    | .txtstr a text => a + text.length ≤ 64 ∧ ∀ c ∈ text, c.toNat < 128
    | .rdall => True) ∧
  (∀ (m : Mnemonic) (operands : List AsmOperand) (is : List Instr), assemble (.cmd m operands) = some is →
    assemble (.cmd m (operands.map fun o => match o with
      | .num n => .num n
      | .chr c => .num c.toNat
      | .reg r => .num r.idx.toNat)) = some is)

/-- Every command is the assembly of the line that writes its operands as numbers, most significant field first
(30_encoding.md R70), and a register may be written by its name. -/
def Obligations.EveryCommandCanBeAssembled : Prop :=
  (∀ b : Byte, assemble (.cmd .enc [.num b.toNat]) = some [.enc b] ∧ assemble (.cmd .dec [.num b.toNat]) = some [.dec b]) ∧
  (∀ (year : BitVec 16) (month day wd hour min sec hun : Byte),
    assemble (.cmd .setdt [.num year.toNat, .num month.toNat, .num day.toNat, .num wd.toNat, .num hour.toNat,
      .num min.toNat, .num sec.toNat, .num hun.toNat]) = some [.setdt year month day wd hour min sec hun]) ∧
  (∀ (r : Reg) (b : Byte), assemble (.cmd .lddt [.num r.idx.toNat, .num b.toNat]) = some [.lddt r b] ∧
    assemble (.cmd .lddt [.reg r, .num b.toNat]) = some [.lddt r b] ∧
    assemble (.cmd .rddt [.num r.idx.toNat]) = some [.rddt r] ∧ assemble (.cmd .rddt [.reg r]) = some [.rddt r]) ∧
  (∀ (a : TxtAddr) (b : Byte), assemble (.cmd .wrtxt [.num a.toNat, .num b.toNat]) = some [.wrtxt a b] ∧
    assemble (.cmd .rdtxt [.num a.toNat]) = some [.rdtxt a]) ∧
  assemble (.cmd .piso []) = some [.piso] ∧ assemble (.cmd .phttp []) = some [.phttp]

/-- The pseudo-instructions (30_encoding.md R71): TXTSTR is one WRTXT for each character in ascending address order, RDALL is
RDDT 0 to RDDT 7. -/
def Obligations.PseudoInstructionExpansions : Prop :=
  (∀ (a : Nat) (text : List Char), a + text.length ≤ 64 → (∀ c ∈ text, c.toNat < 128) →
    assemble (.txtstr a text) =
      some ((List.range text.length).map fun k => .wrtxt (BitVec.ofNat 6 (a + k)) (charByte (text.getD k ' ')))) ∧
  assemble .rdall = some ((List.range 8).map fun k => .rddt (Reg.ofIdx (BitVec.ofNat 3 k)))

/-! ### The HTTP-date parser on every text -/

/-- PHTTP is SetDateTime of the parsed fields on every text in every state (43_parsers.md R125, R128), `p` the prefix skip:
the weekday and the month one of the numbers their letters leave, each chunk its number or a draw of its own, hundredth 0;
the response is 0x0000 whatever SetDateTime returned, and after a field out of domain (day 32, hour 24) the registers
before it are written and the others kept. The indices of the draws are the model's (notes/assumptions/5.md, 12.md), the
names' numbers the spec's general knowledge (14.md). -/
def Obligations.PhttpGivesTheParsedFieldsToSetDateTime : Prop :=
  ∀ (s : State) (p : TxtAddr), p = (if readTxt s 0 = 0x44#8 then 6 else 0) →
    let t := readTxt s
    let weekdays := namedBy weekdayRows 5 (t p) [t (p + 1)]
    let months := namedBy monthRows 12 (t (p + 8)) [t (p + 9), t (p + 10)]
    let nDay := s.draws + drawsAmong weekdays
    let nMonth := nDay + drawsAt t (p + 5)
    let nYear := nMonth + drawsAmong months
    let nHour := nYear + drawsAt t (p + 14)
    let nMin := nHour + drawsAt t (p + 17)
    let nSec := nMin + drawsAt t (p + 20)
    ∃ wd ∈ weekdays, ∃ month ∈ months,
      let f : Fields := { year := chunkAt 2000 nYear t (p + 14), month := month, day := chunkAt 0 nDay t (p + 5), wd := wd,
                          hour := chunkAt 0 nHour t (p + 17), min := chunkAt 0 nMin t (p + 20),
                          sec := chunkAt 0 nSec t (p + 23), hun := 0 }
      exec .phttp s = .next { s with
        x := (setDateTime f s.x).1, rsp := 0x0000#16, draws := nSec + drawsAt t (p + 23) } ∧
      ∀ r : Reg, (setDateTime f s.x).1.get r = if Reg.place r < f.firstInvalid then f.byteFor r else s.x.get r
end

