-- ==== Sys2Proof/Laws/Bits.lean ====
section
/-! SUPPORT. Slices of concatenations, for the decoder, the encoder and the response word, and the register index. -/

namespace Sys2Proof

/-- A slice that lies in the lower part of a concatenation. -/
theorem extract_append_lo {m n s w : Nat} (x : BitVec m) (y : BitVec n) (h : s + w ≤ n) :
    (x ++ y).extractLsb' s w = y.extractLsb' s w := by
  ext i hi
  have : s + i < n := by omega
  simp [BitVec.getLsbD_append, this]

/-- A slice that lies in the upper part of a concatenation. -/
theorem extract_append_hi {m n s w : Nat} (x : BitVec m) (y : BitVec n) (h : n ≤ s) :
    (x ++ y).extractLsb' s w = x.extractLsb' (s - n) w := by
  ext i hi
  have h1 : ¬ s + i < n := by omega
  have h2 : s + i - n = s - n + i := by omega
  simp [BitVec.getLsbD_append, h1, h2]

/-- The whole word as a slice of itself. -/
theorem extract_all {w : Nat} (x : BitVec w) : x.extractLsb' 0 w = x := by
  ext i hi
  simp

/-- The index of a register gives the register back (10_state.md R21). -/
theorem Reg.ofIdx_idx (r : Reg) : Reg.ofIdx r.idx = r := by cases r <;> rfl

/-- Every index names a register (10_state.md R21). -/
theorem Reg.idx_ofIdx (i : BitVec 3) : (Reg.ofIdx i).idx = i := by revert i; decide

end Sys2Proof
end

