-- ==== Sys2Proof/Laws/Memory.lean ====
section
/-! SUPPORT. The text memory: what a read gives after a write, the canonical form kept by every operation, and equal
contents are equal data. -/

namespace Sys2Proof.Machine

/-- Below the least address the canonical form allows, everything reads as unlisted. -/
theorem Memory.read_below {m : Memory} {l a : Nat} (h : Memory.wfFrom l m = true) (ha : a < l) : Memory.read m a = Config.txtUnlisted := by
  induction m generalizing l with
  | nil => rfl
  | cons e rest ih =>
    obtain ⟨k, b⟩ := e
    simp only [Memory.wfFrom, Bool.and_eq_true, decide_eq_true_eq] at h
    obtain ⟨⟨⟨h1, -⟩, -⟩, h2⟩ := h
    rw [Memory.read, if_neg (by omega)]
    exact ih h2 (by omega)

theorem Memory.wfFrom_mono {m : Memory} {l l' : Nat} (h : Memory.wfFrom l m = true) (hl : l' ≤ l) : Memory.wfFrom l' m = true := by
  cases m with
  | nil => rfl
  | cons e rest =>
    simp only [Memory.wfFrom, Bool.and_eq_true, decide_eq_true_eq] at h ⊢
    exact ⟨⟨⟨by omega, h.1.1.2⟩, h.1.2⟩, h.2⟩

theorem Memory.read_cons (k : Nat) (c : Byte) (rest : Memory) (b : Nat) :
    Memory.read ((k, c) :: rest) b = if k = b then c else Memory.read rest b := rfl

/-- A read after a write: the byte written at its address, what was there before elsewhere (20_memory.md R43, R47). -/
theorem Memory.read_write {m : Memory} {l : Nat} (h : Memory.wfFrom l m = true) (a b : Nat) (v : Byte) :
    Memory.read (Memory.write m a v) b = if a = b then v else Memory.read m b := by
  induction m generalizing l with
  | nil =>
    by_cases hv : v = Config.txtUnlisted
    · simp [Memory.write, Memory.read, hv]
    · simp [Memory.write, Memory.read_cons, Memory.read, hv]
  | cons e rest ih =>
    obtain ⟨k, c⟩ := e
    simp only [Memory.wfFrom, Bool.and_eq_true, decide_eq_true_eq] at h
    have hlow : ∀ {j : Nat}, j ≤ k → Memory.read rest j = Config.txtUnlisted := fun hj => Memory.read_below h.2 (by omega)
    rcases lt_trichotomy a k with hk | rfl | hk
    · by_cases hv : v = Config.txtUnlisted
      · rw [Memory.write, if_pos hk, if_pos hv]
        split_ifs with hb
        · subst hb
          rw [Memory.read_cons, if_neg (by omega), hlow (by omega), hv]
        · rfl
      · rw [Memory.write, if_pos hk, if_neg hv, Memory.read_cons]
    · by_cases hv : v = Config.txtUnlisted
      · rw [Memory.write, if_neg (by omega), if_pos rfl, if_pos hv]
        split_ifs with hb
        · subst hb
          rw [hlow (by omega), hv]
        · rw [Memory.read_cons, if_neg hb]
      · rw [Memory.write, if_neg (by omega), if_pos rfl, if_neg hv, Memory.read_cons, Memory.read_cons]
        split_ifs <;> rfl
    · rw [Memory.write, if_neg (by omega), if_neg (by omega), Memory.read_cons, ih h.2, Memory.read_cons]
      by_cases hb : a = b
      · subst hb
        rw [if_neg (by omega), if_pos rfl, if_pos rfl]
      · simp only [if_neg hb]

/-- Equal contents are equal data. -/
theorem Memory.ext_of_read {m m' : Memory} {l : Nat} (h : Memory.wfFrom l m = true) (h' : Memory.wfFrom l m' = true)
    (same : ∀ a, Memory.read m a = Memory.read m' a) : m = m' := by
  induction m generalizing l m' with
  | nil =>
    cases m' with
    | nil => rfl
    | cons e rest =>
      obtain ⟨k, c⟩ := e
      simp only [Memory.wfFrom, Bool.and_eq_true, decide_eq_true_eq] at h'
      have := same k
      rw [Memory.read_cons, if_pos rfl] at this
      exact absurd this.symm h'.1.2
  | cons e rest ih =>
    obtain ⟨k, c⟩ := e
    have hm := h
    simp only [Memory.wfFrom, Bool.and_eq_true, decide_eq_true_eq] at h
    cases m' with
    | nil =>
      have := same k
      rw [Memory.read_cons, if_pos rfl] at this
      exact absurd this h.1.2
    | cons e' rest' =>
      obtain ⟨k', c'⟩ := e'
      have hm' := h'
      simp only [Memory.wfFrom, Bool.and_eq_true, decide_eq_true_eq] at h'
      have hkk : k = k' := by
        rcases lt_trichotomy k k' with hk | hk | hk
        · have e := same k
          rw [Memory.read_cons, if_pos rfl, Memory.read_cons, if_neg (by omega), Memory.read_below h'.2 (by omega)] at e
          exact absurd e h.1.2
        · exact hk
        · have e := same k'
          rw [Memory.read_cons, if_neg (by omega), Memory.read_below h.2 (by omega), Memory.read_cons, if_pos rfl] at e
          exact absurd e.symm h'.1.2
      subst hkk
      have hc := same k
      rw [Memory.read_cons, if_pos rfl, Memory.read_cons, if_pos rfl] at hc
      subst hc
      congr 1
      refine ih h.2 h'.2 fun a => ?_
      by_cases ha : k = a
      · subst ha
        rw [Memory.read_below h.2 (by omega), Memory.read_below h'.2 (by omega)]
      · have e := same a
        rwa [Memory.read_cons, if_neg ha, Memory.read_cons, if_neg ha] at e

/-- A write keeps the canonical form. -/
theorem Memory.wfFrom_write {m : Memory} {l a : Nat} (h : Memory.wfFrom l m = true) (hl : l ≤ a) (ha : a < Config.txtLen) (v : Byte) :
    Memory.wfFrom l (Memory.write m a v) = true := by
  induction m generalizing l with
  | nil => by_cases hv : v = Config.txtUnlisted <;> simp [Memory.write, Memory.wfFrom, hv, hl, ha]
  | cons e rest ih =>
    obtain ⟨k, c⟩ := e
    have h' := h
    simp only [Memory.wfFrom, Bool.and_eq_true, decide_eq_true_eq] at h
    obtain ⟨⟨⟨h1, h3⟩, h4⟩, h2⟩ := h
    rw [Memory.write]
    split_ifs with c1 c2 c3 c4
    · exact h'
    · simp only [Memory.wfFrom, Bool.and_eq_true, decide_eq_true_eq]
      exact ⟨⟨⟨hl, ha⟩, c2⟩, ⟨⟨by omega, h3⟩, h4⟩, h2⟩
    · exact Memory.wfFrom_mono h2 (by omega)
    · subst c3
      simp only [Memory.wfFrom, Bool.and_eq_true, decide_eq_true_eq]
      exact ⟨⟨⟨hl, ha⟩, c4⟩, h2⟩
    · simp only [Memory.wfFrom, Bool.and_eq_true, decide_eq_true_eq]
      exact ⟨⟨⟨h1, h3⟩, h4⟩, ih h2 (by omega)⟩

theorem Memory.wf_write {m : Memory} (h : Memory.wf m = true) (a : TxtAddr) (v : Byte) :
    Memory.wf (Memory.write m a.toNat v) = true :=
  Memory.wfFrom_write h (Nat.zero_le _) a.isLt v

theorem Memory.wf_nil : Memory.wf [] = true := rfl

/-- Filling the memory with fresh bytes keeps the canonical form (70_reset_and_hazards.md R170). -/
theorem freshTxt_wf (d : DrawStream) (n : Nat) {m : Memory} (h : Memory.wf m = true) {k : Nat}
    (hk : k ≤ Config.txtLen) : Memory.wf (freshTxt d n k m) = true := by
  induction k with
  | zero => exact h
  | succ k ih => exact Memory.wfFrom_write (ih (by omega)) (Nat.zero_le _) (by omega) _

/-- What the memory reads as after the fill: draw `n + a` below `k`, as before from `k` on. -/
theorem freshTxt_read (d : DrawStream) (n : Nat) {m : Memory} (h : Memory.wf m = true) {k : Nat}
    (hk : k ≤ Config.txtLen) (a : Nat) :
    Memory.read (freshTxt d n k m) a = if a < k then (d (n + a)).setWidth 8 else Memory.read m a := by
  induction k with
  | zero => rfl
  | succ k ih =>
    rw [freshTxt, Memory.read_write (freshTxt_wf d n h (by omega)), ih (by omega)]
    rcases lt_trichotomy k a with hka | rfl | hka
    · rw [if_neg (by omega), if_neg (by omega), if_neg (by omega)]
    · rw [if_pos rfl, if_pos (by omega)]
    · rw [if_neg (by omega), if_pos hka, if_pos (by omega)]

/-- `TXT[a']` after `TXT[a] <- v` (00_scope.md R9). -/
theorem readTxt_writeTxt {s : State} (h : Memory.wf s.txt = true) (a a' : TxtAddr) (v : Byte) :
    readTxt (writeTxt a v s) a' = if a = a' then v else readTxt s a' := by
  rw [readTxt, writeTxt, Memory.read_write h]
  simp only [BitVec.toNat_inj, readTxt]

end Sys2Proof.Machine
end

