-- ==== Sys2Proof/Laws/State.lean ====
section
/-! SUPPORT. What each update of State leaves in each field: one lemma per field per update, so that no proof unfolds a
record update. -/

namespace Sys2Proof.Machine

@[simp] theorem respond_x (ok : Bool) (data : Byte) (s : State) : (respond ok data s).x = s.x := rfl
@[simp] theorem respond_txt (ok : Bool) (data : Byte) (s : State) : (respond ok data s).txt = s.txt := rfl
@[simp] theorem respond_busy (ok : Bool) (data : Byte) (s : State) : (respond ok data s).busy = s.busy := rfl
@[simp] theorem respond_rspValid (ok : Bool) (data : Byte) (s : State) : (respond ok data s).rspValid = s.rspValid := rfl
@[simp] theorem respond_rsp (ok : Bool) (data : Byte) (s : State) : (respond ok data s).rsp = rspWord false ok data := rfl
@[simp] theorem respond_inputs (ok : Bool) (data : Byte) (s : State) : (respond ok data s).inputs = s.inputs := rfl
@[simp] theorem respond_draws (ok : Bool) (data : Byte) (s : State) : (respond ok data s).draws = s.draws := rfl

@[simp] theorem raiseIllegal_x (s : State) : (raiseIllegal s).x = s.x := rfl
@[simp] theorem raiseIllegal_txt (s : State) : (raiseIllegal s).txt = s.txt := rfl
@[simp] theorem raiseIllegal_busy (s : State) : (raiseIllegal s).busy = s.busy := rfl
@[simp] theorem raiseIllegal_rspValid (s : State) : (raiseIllegal s).rspValid = s.rspValid := rfl
@[simp] theorem raiseIllegal_rsp (s : State) : (raiseIllegal s).rsp = rspWord true false 0x00#8 := rfl
@[simp] theorem raiseIllegal_inputs (s : State) : (raiseIllegal s).inputs = s.inputs := rfl
@[simp] theorem raiseIllegal_draws (s : State) : (raiseIllegal s).draws = s.draws := rfl

@[simp] theorem writeReg_x (r : Reg) (v : Byte) (s : State) : (writeReg r v s).x = s.x.set r v := rfl
@[simp] theorem writeReg_txt (r : Reg) (v : Byte) (s : State) : (writeReg r v s).txt = s.txt := rfl
@[simp] theorem writeReg_busy (r : Reg) (v : Byte) (s : State) : (writeReg r v s).busy = s.busy := rfl
@[simp] theorem writeReg_rspValid (r : Reg) (v : Byte) (s : State) : (writeReg r v s).rspValid = s.rspValid := rfl
@[simp] theorem writeReg_rsp (r : Reg) (v : Byte) (s : State) : (writeReg r v s).rsp = s.rsp := rfl
@[simp] theorem writeReg_inputs (r : Reg) (v : Byte) (s : State) : (writeReg r v s).inputs = s.inputs := rfl
@[simp] theorem writeReg_draws (r : Reg) (v : Byte) (s : State) : (writeReg r v s).draws = s.draws := rfl

@[simp] theorem writeTxt_x (a : TxtAddr) (v : Byte) (s : State) : (writeTxt a v s).x = s.x := rfl
@[simp] theorem writeTxt_txt (a : TxtAddr) (v : Byte) (s : State) : (writeTxt a v s).txt = Memory.write s.txt a.toNat v := rfl
@[simp] theorem writeTxt_busy (a : TxtAddr) (v : Byte) (s : State) : (writeTxt a v s).busy = s.busy := rfl
@[simp] theorem writeTxt_rspValid (a : TxtAddr) (v : Byte) (s : State) : (writeTxt a v s).rspValid = s.rspValid := rfl
@[simp] theorem writeTxt_rsp (a : TxtAddr) (v : Byte) (s : State) : (writeTxt a v s).rsp = s.rsp := rfl
@[simp] theorem writeTxt_inputs (a : TxtAddr) (v : Byte) (s : State) : (writeTxt a v s).inputs = s.inputs := rfl
@[simp] theorem writeTxt_draws (a : TxtAddr) (v : Byte) (s : State) : (writeTxt a v s).draws = s.draws := rfl

@[simp] theorem storeParsed_x (f : Fields) (n : Nat) (s : State) : (storeParsed f n s).x = (setDateTime f s.x).1 := rfl
@[simp] theorem storeParsed_txt (f : Fields) (n : Nat) (s : State) : (storeParsed f n s).txt = s.txt := rfl
@[simp] theorem storeParsed_busy (f : Fields) (n : Nat) (s : State) : (storeParsed f n s).busy = s.busy := rfl
@[simp] theorem storeParsed_rspValid (f : Fields) (n : Nat) (s : State) : (storeParsed f n s).rspValid = s.rspValid := rfl
@[simp] theorem storeParsed_rsp (f : Fields) (n : Nat) (s : State) : (storeParsed f n s).rsp = s.rsp := rfl
@[simp] theorem storeParsed_inputs (f : Fields) (n : Nat) (s : State) : (storeParsed f n s).inputs = s.inputs := rfl
@[simp] theorem storeParsed_draws (f : Fields) (n : Nat) (s : State) : (storeParsed f n s).draws = n := rfl

@[simp] theorem takeReset_x (d : DrawStream) (s : State) : (takeReset d s).x = freshRegs d s.draws := rfl
@[simp] theorem takeReset_txt (d : DrawStream) (s : State) : (takeReset d s).txt = freshTxt d (s.draws + 8) Config.txtLen [] := by rw [takeReset]
@[simp] theorem takeReset_busy (d : DrawStream) (s : State) : (takeReset d s).busy = false := rfl
@[simp] theorem takeReset_rspValid (d : DrawStream) (s : State) : (takeReset d s).rspValid = false := rfl
@[simp] theorem takeReset_rsp (d : DrawStream) (s : State) : (takeReset d s).rsp = d (s.draws + 72) := rfl
@[simp] theorem takeReset_inputs (d : DrawStream) (s : State) : (takeReset d s).inputs = s.inputs := rfl
@[simp] theorem takeReset_draws (d : DrawStream) (s : State) : (takeReset d s).draws = s.draws + 73 := rfl

@[simp] theorem inFlight_x (s : State) : (inFlight s).x = s.x := rfl
@[simp] theorem inFlight_txt (s : State) : (inFlight s).txt = s.txt := rfl
@[simp] theorem inFlight_busy (s : State) : (inFlight s).busy = true := rfl
@[simp] theorem inFlight_rspValid (s : State) : (inFlight s).rspValid = false := rfl
@[simp] theorem inFlight_rsp (s : State) : (inFlight s).rsp = s.rsp := rfl
@[simp] theorem inFlight_inputs (s : State) : (inFlight s).inputs = s.inputs := rfl
@[simp] theorem inFlight_draws (s : State) : (inFlight s).draws = s.draws := rfl

@[simp] theorem presenting_x (s : State) : (presenting s).x = s.x := rfl
@[simp] theorem presenting_txt (s : State) : (presenting s).txt = s.txt := rfl
@[simp] theorem presenting_busy (s : State) : (presenting s).busy = false := rfl
@[simp] theorem presenting_rspValid (s : State) : (presenting s).rspValid = true := rfl
@[simp] theorem presenting_rsp (s : State) : (presenting s).rsp = s.rsp := rfl
@[simp] theorem presenting_inputs (s : State) : (presenting s).inputs = s.inputs := rfl
@[simp] theorem presenting_draws (s : State) : (presenting s).draws = s.draws := rfl

@[simp] theorem idle_x (s : State) : (idle s).x = s.x := rfl
@[simp] theorem idle_txt (s : State) : (idle s).txt = s.txt := rfl
@[simp] theorem idle_busy (s : State) : (idle s).busy = false := rfl
@[simp] theorem idle_rspValid (s : State) : (idle s).rspValid = false := rfl
@[simp] theorem idle_rsp (s : State) : (idle s).rsp = s.rsp := rfl
@[simp] theorem idle_inputs (s : State) : (idle s).inputs = s.inputs := rfl
@[simp] theorem idle_draws (s : State) : (idle s).draws = s.draws := rfl

@[simp] theorem presentNext_x (cw : CmdWord) (s : State) : (presentNext cw s).x = s.x := rfl
@[simp] theorem presentNext_txt (cw : CmdWord) (s : State) : (presentNext cw s).txt = s.txt := rfl
@[simp] theorem presentNext_busy (cw : CmdWord) (s : State) : (presentNext cw s).busy = s.busy := rfl
@[simp] theorem presentNext_rspValid (cw : CmdWord) (s : State) : (presentNext cw s).rspValid = s.rspValid := rfl
@[simp] theorem presentNext_rsp (cw : CmdWord) (s : State) : (presentNext cw s).rsp = s.rsp := rfl
@[simp] theorem presentNext_inputs (cw : CmdWord) (s : State) : (presentNext cw s).inputs = .cmd cw :: s.inputs := rfl
@[simp] theorem presentNext_draws (cw : CmdWord) (s : State) : (presentNext cw s).draws = s.draws := rfl

end Sys2Proof.Machine
end

