-- ==== Sys2Proof/Laws/Ops.lean ====
section
/-! SUPPORT. What each shared operation can do, said once: register reads and writes, the response word, SetDateTime,
draws and lookups, the meanings and the step. -/

namespace Sys2Proof.Machine

/-- `x[r']` after `x[r] <- v`: no aliasing (10_state.md R21). -/
theorem DateTime.get_set (x : DateTime) (r r' : Reg) (v : Byte) :
    (x.set r v).get r' = if r' = r then v else x.get r' := by
  cases r <;> cases r' <;> rfl

/-- Two buffers with the same eight registers are the same. -/
theorem DateTime.ext_of_get {x y : DateTime} (h : ∀ r, x.get r = y.get r) : x = y := by
  have := h .hun; have := h .sec; have := h .min; have := h .hr
  have := h .day; have := h .mon; have := h .yr; have := h .wd
  cases x; cases y; simp_all [DateTime.get]

/-- The ILL bit of a response word (30_encoding.md R68). -/
theorem rspWord_ill (ill ok : Bool) (b : Byte) : (rspWord ill ok b).extractLsb' 15 1 = BitVec.ofBool ill := by
  rw [rspWord, extract_append_hi _ _ (by decide), extract_append_hi _ _ (by decide), extract_append_hi _ _ (by decide),
    extract_all]

/-- The OK bit of a response word (R68). -/
theorem rspWord_ok (ill ok : Bool) (b : Byte) : (rspWord ill ok b).extractLsb' 14 1 = BitVec.ofBool ok := by
  rw [rspWord, extract_append_hi _ _ (by decide), extract_append_hi _ _ (by decide), extract_append_lo _ _ (by decide),
    extract_all]

/-- The reserved bits of a response word are 0 (R68). -/
theorem rspWord_reserved (ill ok : Bool) (b : Byte) : (rspWord ill ok b).extractLsb' 8 6 = 0#6 := by
  rw [rspWord, extract_append_hi _ _ (by decide), extract_append_lo _ _ (by decide), extract_all]

/-- The DATA field of a response word (R68). -/
theorem rspWord_data (ill ok : Bool) (b : Byte) : (rspWord ill ok b).extractLsb' 0 8 = b := by
  rw [rspWord, extract_append_lo _ _ (by decide), extract_all]

/-- `respond(0, 0, DATA)` is the DATA byte alone (30_encoding.md R69). -/
theorem rspWord_byte (b : Byte) : rspWord false false b = b.setWidth 16 := by
  change (0#8 ++ b : BitVec (8 + 8)) = b.setWidth 16
  ext i hi
  simp only [BitVec.getElem_append]
  split
  · simp_all
  · rename_i h
    simp [BitVec.getLsbD_of_ge b i (by omega)]

/-- What SetDateTime leaves in a register: the new byte when the register's field and all before it are in domain, the
old byte otherwise (41_buffer.md R91). -/
theorem setDateTime_get (f : Fields) (x : DateTime) (r : Reg) :
    (setDateTime f x).1.get r = if f.passed r then f.byteFor r else x.get r := by
  simp only [setDateTime]
  split_ifs with h1 h2 h3 h4 h5 h6 h7 h8 h <;>
    cases r <;> simp_all [Fields.passed, validationOrder, Reg.place, Fields.inDomain, Fields.byteFor, DateTime.get, DateTime.set]

/-- SetDateTime returns true exactly when every field is in domain (R91). -/
theorem setDateTime_ok (f : Fields) (x : DateTime) : (setDateTime f x).2 = f.passed .hun := by
  simp only [setDateTime]
  split_ifs <;> simp_all [Fields.passed, validationOrder, Reg.place, Fields.inDomain]

/-- `enc` in its domain is the byte that shows the digits (40_codec.md R80). -/
theorem enc_of_le {d : Nat} (h : d ≤ 99) : enc d = bcd d := by rw [enc, if_pos h, bcd]

/-- An element drawn from a set is one of the set, and costs one draw (00_scope.md R11). -/
theorem drawFrom_mem (d : DrawStream) (n : Nat) (a : Int) (more : List Int) :
    (drawFrom d n a more).1 ∈ a :: more ∧ (drawFrom d n a more).2 = n + 1 := by
  have h : (d n).toNat % (more.length + 1) < (a :: more).length := Nat.mod_lt _ (Nat.succ_pos _)
  refine ⟨?_, rfl⟩
  rw [drawFrom, List.getD_eq_getElem _ _ h]
  exact List.getElem_mem h

/-- A chunk of two digits is its number and takes no draw (43_parsers.md R120). -/
theorem chunk2_digits (d : DrawStream) (n : Nat) {c1 c0 : Byte} (h : (isDigit c1 && isDigit c0) = true) :
    chunk2 d n c1 c0 = (10 * dval c1 + dval c0, n) := by rw [chunk2, if_pos h]

/-- A chunk that is not two digits is a draw (R120). -/
theorem chunk2_garbage (d : DrawStream) (n : Nat) {c1 c0 : Byte} (h : (isDigit c1 && isDigit c0) = false) :
    chunk2 d n c1 c0 = ((d n).toInt, n + 1) := by simp [chunk2, h, drawInt]

/-- A year of two digits is 2000 and its number and takes no draw (R121). -/
theorem yearOf_digits (d : DrawStream) (n : Nat) {c1 c0 : Byte} (h : (isDigit c1 && isDigit c0) = true) :
    yearOf d n c1 c0 = (2000 + 10 * dval c1 + dval c0, n) := by rw [yearOf, if_pos h]

/-- A year that is not two digits is a draw (R121). -/
theorem yearOf_garbage (d : DrawStream) (n : Nat) {c1 c0 : Byte} (h : (isDigit c1 && isDigit c0) = false) :
    yearOf d n c1 c0 = ((d n).toInt, n + 1) := by simp [yearOf, h, drawInt]

/-- A digit's value is 0 to 9 (00_scope.md R12). -/
theorem dval_range {c : Byte} (h : isDigit c = true) : 0 ≤ dval c ∧ dval c ≤ 9 := by
  simp only [isDigit, Bool.and_eq_true, decide_eq_true_eq] at h
  simp only [dval]
  omega

end Sys2Proof.Machine
end

