-- ==== Sys2Proof/Laws/Exec.lean ====
section
/-! SUPPORT. The meanings and the step, each as one equation: what later proofs cite instead of unfolding exec and step. -/

namespace Sys2Proof.Machine

theorem exec_enc (b : Byte) (s : State) : exec (.enc b) s = .next (respond false (enc b.toNat) s) := rfl

theorem exec_dec (b : Byte) (s : State) : exec (.dec b) s = .next (respond false (dec b) s) := rfl

theorem exec_setdt (year : BitVec 16) (month day wd hour min sec hun : Byte) (s : State) :
    exec (.setdt year month day wd hour min sec hun) s =
      .next (respond (setDateTime (setdtFields year month day wd hour min sec hun) s.x).2 0x00#8
        { s with x := (setDateTime (setdtFields year month day wd hour min sec hun) s.x).1 }) := rfl

theorem exec_lddt (r : Reg) (b : Byte) (s : State) :
    exec (.lddt r b) s = .next (respond false 0x00#8 (writeReg r b s)) := rfl

theorem exec_rddt (r : Reg) (s : State) : exec (.rddt r) s = .next (respond false (readReg s r) s) := rfl

theorem exec_piso (s : State) :
    exec .piso s = .next (respond false 0x00#8 (storeParsed (isoFields Config.draw s.draws (readTxt s)).1
      (isoFields Config.draw s.draws (readTxt s)).2 s)) := rfl

theorem exec_phttp (s : State) :
    exec .phttp s = .next (respond false 0x00#8 (storeParsed (httpFields Config.draw s.draws (readTxt s)).1
      (httpFields Config.draw s.draws (readTxt s)).2 s)) := rfl

theorem exec_wrtxt (addr : TxtAddr) (b : Byte) (s : State) :
    exec (.wrtxt addr b) s = .next (respond false 0x00#8 (writeTxt addr b s)) := rfl

theorem exec_rdtxt (addr : TxtAddr) (s : State) :
    exec (.rdtxt addr) s = .next (respond false (readTxt s addr) s) := rfl

/-- A step with nothing presented: an idle edge (00_scope.md R6). -/
theorem step_nil {s : State} (h : s.inputs = []) : step s = edge quietPins true s := by
  simp only [step, takeInput, h]

/-- A step that takes a reset (70_reset_and_hazards.md R170). -/
theorem step_rst {s : State} {rest : List HostInput} (h : s.inputs = .rst :: rest) :
    step s = .next (takeReset Config.draw { s with inputs := rest }) := by
  simp only [step, takeInput, h]

/-- A step that takes a command word (00_scope.md R6). -/
theorem step_cmd {s : State} {cw : CmdWord} {rest : List HostInput} (h : s.inputs = .cmd cw :: rest) :
    step s = mapNext presenting (runWord cw (idle { s with inputs := rest })) := by
  simp only [step, takeInput, h]

/-- The word the host presents next is the one the step runs. -/
theorem step_presentNext (cw : CmdWord) (s : State) :
    step (presentNext cw s) = mapNext presenting (runWord cw (idle s)) := rfl

theorem runWord_ok {cw : CmdWord} {i : Instr} (h : decode cw = .ok i) (s : State) : runWord cw s = exec i s := by
  simp only [runWord, h]

theorem runWord_illegal {cw : CmdWord} {e : Illegal} (h : decode cw = .error e) (s : State) :
    runWord cw s = .next (raiseIllegal s) := by
  simp only [runWord, h]

@[simp] theorem mapNext_next (f : State → State) (s : State) : mapNext f (.next s) = .next (f s) := rfl

/-- An edge with `rst` = 1 (70_reset_and_hazards.md R170). -/
theorem edge_rst {pins : PinsIn} (h : pins.rst = true) (done : Bool) (s : State) :
    edge pins done s = .next (takeReset Config.draw s) := by
  rw [edge, if_pos h]

/-- An edge with a command in flight: answered at it or not (30_encoding.md R72). -/
theorem edge_busy {pins : PinsIn} {s : State} (h : pins.rst = false) (hb : s.busy = true) (done : Bool) :
    edge pins done s = .next (if done then presenting s else s) := by
  rw [edge, if_neg (by simp [h]), if_pos hb]

/-- The edge after the cycle of a response (R72). -/
theorem edge_presented {pins : PinsIn} {s : State} (h : pins.rst = false) (hb : s.busy = false)
    (hv : s.rspValid = true) (done : Bool) : edge pins done s = .next (idle s) := by
  rw [edge, if_neg (by simp [h]), if_neg (by simp [hb]), if_pos hv]

/-- The edge that accepts a command word (R72). -/
theorem edge_accept {pins : PinsIn} {s : State} (h : pins.rst = false) (hr : ready s = true)
    (hc : pins.cmdValid = true) (done : Bool) : edge pins done s = mapNext inFlight (runWord pins.cmd s) := by
  simp only [ready, Bool.and_eq_true, Bool.not_eq_true'] at hr
  rw [edge, if_neg (by simp [h]), if_neg (by simp [hr.1]), if_neg (by simp [hr.2]), if_pos hc]

/-- An edge at which a ready block is presented nothing (R72). -/
theorem edge_none {pins : PinsIn} {s : State} (h : pins.rst = false) (hr : ready s = true)
    (hc : pins.cmdValid = false) (done : Bool) : edge pins done s = .next s := by
  simp only [ready, Bool.and_eq_true, Bool.not_eq_true'] at hr
  rw [edge, if_neg (by simp [h]), if_neg (by simp [hr.1]), if_neg (by simp [hr.2]), if_neg (by simp [hc])]

theorem edges_nil (s : State) : edges [] s = .next s := rfl

/-- Several edges, the first of which gives a next state. -/
theorem edges_cons {pins : PinsIn} {done : Bool} {s t : State} (h : edge pins done s = .next t)
    (rest : List (PinsIn × Bool)) : edges ((pins, done) :: rest) s = edges rest t := by
  change (match edge pins done s with
    | .next t => edges rest t
    | .fault r => .fault r
    | .refused r => .refused r) = edges rest t
  rw [h]

end Sys2Proof.Machine
end

