-- ==== Sys2Proof/Laws/Parsers.lean ====
section
/-! SUPPORT. What the parsers' helper functions can do, each in one lemma: the value and the number of draws of a chunk, of a
year and of the two lookups (43_parsers.md R120 to R123). -/

namespace Sys2Proof.Machine

/-- A draw from two numbers. -/
theorem drawFrom_two (d : DrawStream) (n : Nat) (a b : Int) :
    ((drawFrom d n a [b]).1 = a ∨ (drawFrom d n a [b]).1 = b) ∧ (drawFrom d n a [b]).2 = n + 1 := by
  simpa using drawFrom_mem d n a [b]

/-- A draw from three numbers. -/
theorem drawFrom_three (d : DrawStream) (n : Nat) (a b c : Int) :
    ((drawFrom d n a [b, c]).1 = a ∨ (drawFrom d n a [b, c]).1 = b ∨ (drawFrom d n a [b, c]).1 = c) ∧
    (drawFrom d n a [b, c]).2 = n + 1 := by
  simpa using drawFrom_mem d n a [b, c]

/-- The number two digits show, by their values. -/
theorem numberAt_eq {t : TxtAddr → Byte} {a : TxtAddr} (h : digitsAt t a = true) :
    (numberAt t a : Int) = 10 * dval (t a) + dval (t (a + 1)) := by
  simp only [digitsAt, isDigit, Bool.and_eq_true, decide_eq_true_eq] at h
  simp only [numberAt, dval]
  omega

/-- A chunk from `a` on (R120). -/
theorem chunk2_at (n : Nat) (t : TxtAddr → Byte) {a b : TxtAddr} (hb : b = a + 1) :
    chunk2 Config.draw n (t a) (t b) = (chunkAt 0 n t a, n + drawsAt t a) := by
  subst hb
  rw [chunkAt, drawsAt]
  by_cases h : digitsAt t a = true
  · rw [if_pos h, if_pos h, chunk2_digits _ _ h, numberAt_eq h, zero_add, add_zero]
  · rw [if_neg h, if_neg h, chunk2_garbage _ _ (Bool.eq_false_iff.2 h)]

/-- A year from `a` on (R121). -/
theorem yearOf_at (n : Nat) (t : TxtAddr → Byte) {a b : TxtAddr} (hb : b = a + 1) :
    yearOf Config.draw n (t a) (t b) = (chunkAt 2000 n t a, n + drawsAt t a) := by
  subst hb
  rw [chunkAt, drawsAt]
  by_cases h : digitsAt t a = true
  · rw [if_pos h, if_pos h, yearOf_digits _ _ h, numberAt_eq h, add_zero, add_assoc]
  · rw [if_neg h, if_neg h, yearOf_garbage _ _ (Bool.eq_false_iff.2 h)]

/-- The weekday lookup answers one of the numbers its letters leave, and draws when there are several (R122). -/
theorem wdLookup_named (d : DrawStream) (n : Nat) (c0 c1 : Byte) :
    (wdLookup d n c0 c1).1 ∈ namedBy weekdayRows 5 c0 [c1] ∧
    (wdLookup d n c0 c1).2 = n + drawsAmong (namedBy weekdayRows 5 c0 [c1]) := by
  rw [wdLookup]
  split_ifs <;> simp_all [namedBy, weekdayRows, letterFits, charByte, drawsAmong]
  · exact drawFrom_two d n 2 4
  · exact (drawFrom_two d n 0 6).imp_left Or.symm |>.imp_left Or.symm

/-- What the letters of a month that begins with `J` leave. -/
theorem namedBy_month_J (c1 c2 : Byte) : namedBy monthRows 12 0x4A#8 [c1, c2] =
    if c1 = 0x61#8 ∧ c2 = 0x6E#8 then [1] else if c1 = 0x75#8 ∧ c2 = 0x6E#8 then [6]
    else if c1 = 0x75#8 ∧ c2 = 0x6C#8 then [7] else [1, 6, 7] := by
  by_cases e1 : c1 = 0x61#8 <;> by_cases e2 : c1 = 0x75#8 <;> by_cases e3 : c2 = 0x6E#8 <;>
    by_cases e4 : c2 = 0x6C#8 <;> simp_all [namedBy, monthRows, letterFits, charByte]

/-- What the letters of a month that begins with `M` leave: only the third is tested. -/
theorem namedBy_month_M (c1 c2 : Byte) : namedBy monthRows 12 0x4D#8 [c1, c2] =
    if c2 = 0x72#8 then [3] else if c2 = 0x79#8 then [5] else [3, 5] := by
  by_cases e3 : c2 = 0x72#8 <;> by_cases e4 : c2 = 0x79#8 <;> simp_all [namedBy, monthRows, letterFits, charByte]

/-- What the letters of a month that begins with `A` leave: only the second is tested. -/
theorem namedBy_month_A (c1 c2 : Byte) : namedBy monthRows 12 0x41#8 [c1, c2] =
    if c1 = 0x70#8 then [4] else if c1 = 0x75#8 then [8] else [4, 8] := by
  by_cases e3 : c1 = 0x70#8 <;> by_cases e4 : c1 = 0x75#8 <;> simp_all [namedBy, monthRows, letterFits, charByte]

/-- The month lookup answers one of the numbers its letters leave, and draws when there are several (R123). -/
theorem monLookup_named (d : DrawStream) (n : Nat) (c0 c1 c2 : Byte) :
    (monLookup d n c0 c1 c2).1 ∈ namedBy monthRows 12 c0 [c1, c2] ∧
    (monLookup d n c0 c1 c2).2 = n + drawsAmong (namedBy monthRows 12 c0 [c1, c2]) := by
  by_cases hJ : c0 = 0x4A#8
  · subst hJ
    rw [namedBy_month_J, show monLookup d n 0x4A#8 c1 c2 = (if c1 = 0x61#8 ∧ c2 = 0x6E#8 then (1, n)
      else if c1 = 0x75#8 ∧ c2 = 0x6E#8 then (6, n)
      else if c1 = 0x75#8 ∧ c2 = 0x6C#8 then (7, n) else drawFrom d n 1 [6, 7]) from rfl]
    split_ifs <;> simp [drawsAmong]
    exact drawFrom_three d n 1 6 7
  by_cases hM : c0 = 0x4D#8
  · subst hM
    rw [namedBy_month_M, show monLookup d n 0x4D#8 c1 c2 = (if c2 = 0x72#8 then (3, n)
      else if c2 = 0x79#8 then (5, n) else drawFrom d n 3 [5]) from rfl]
    split_ifs <;> simp [drawsAmong]
    exact drawFrom_two d n 3 5
  by_cases hA : c0 = 0x41#8
  · subst hA
    rw [namedBy_month_A, show monLookup d n 0x41#8 c1 c2 = (if c1 = 0x70#8 then (4, n)
      else if c1 = 0x75#8 then (8, n) else drawFrom d n 4 [8]) from rfl]
    split_ifs <;> simp [drawsAmong]
    exact drawFrom_two d n 4 8
  rw [monLookup, if_neg hJ, if_neg hM, if_neg hA]
  split_ifs <;> simp_all [namedBy, monthRows, letterFits, charByte, drawsAmong]

end Sys2Proof.Machine
end

