-- ==== Sys2Proof/Laws/PerInstr.lean ====
section
/-! SUPPORT. Statements about every command, one lemma per constructor. Family EncodeOpcode: the encoded word carries the
command's opcode in `cw[79:72]` (30_encoding.md R60, R63). -/

namespace Sys2Proof.Laws.EncodeOpcode

/-- The opcode field of the encoded command is its mnemonic's opcode. -/
def Statement (i : Instr) : Prop := field 72 8 (encode i) = i.mnemonic.opcode

theorem enc (b : Byte) : Statement (.enc b) := by
  change (0x01#8 ++ b ++ 0#64 : BitVec _).extractLsb' 72 8 = 0x01#8
  iterate 2 rw [extract_append_hi _ _ (by decide)]
  exact extract_all _

theorem dec (b : Byte) : Statement (.dec b) := by
  change (0x02#8 ++ b ++ 0#64 : BitVec _).extractLsb' 72 8 = 0x02#8
  iterate 2 rw [extract_append_hi _ _ (by decide)]
  exact extract_all _

theorem setdt (year : BitVec 16) (month day wd hour min sec hun : Byte) :
    Statement (.setdt year month day wd hour min sec hun) := by
  change (0x10#8 ++ year ++ month ++ day ++ wd ++ hour ++ min ++ sec ++ hun : BitVec _).extractLsb' 72 8 = 0x10#8
  iterate 8 rw [extract_append_hi _ _ (by decide)]
  exact extract_all _

theorem lddt (r : Reg) (b : Byte) : Statement (.lddt r b) := by
  change (0x11#8 ++ 0#5 ++ r.idx ++ b ++ 0#56 : BitVec _).extractLsb' 72 8 = 0x11#8
  iterate 4 rw [extract_append_hi _ _ (by decide)]
  exact extract_all _

theorem rddt (r : Reg) : Statement (.rddt r) := by
  change (0x12#8 ++ 0#5 ++ r.idx ++ 0#64 : BitVec _).extractLsb' 72 8 = 0x12#8
  iterate 3 rw [extract_append_hi _ _ (by decide)]
  exact extract_all _

theorem piso : Statement .piso := by
  change (0x20#8 ++ 0#72 : BitVec _).extractLsb' 72 8 = 0x20#8
  iterate 1 rw [extract_append_hi _ _ (by decide)]
  exact extract_all _

theorem phttp : Statement .phttp := by
  change (0x21#8 ++ 0#72 : BitVec _).extractLsb' 72 8 = 0x21#8
  iterate 1 rw [extract_append_hi _ _ (by decide)]
  exact extract_all _

theorem wrtxt (addr : TxtAddr) (b : Byte) : Statement (.wrtxt addr b) := by
  change (0x30#8 ++ 0#2 ++ addr ++ b ++ 0#56 : BitVec _).extractLsb' 72 8 = 0x30#8
  iterate 4 rw [extract_append_hi _ _ (by decide)]
  exact extract_all _

theorem rdtxt (addr : TxtAddr) : Statement (.rdtxt addr) := by
  change (0x31#8 ++ 0#2 ++ addr ++ 0#64 : BitVec _).extractLsb' 72 8 = 0x31#8
  iterate 3 rw [extract_append_hi _ _ (by decide)]
  exact extract_all _

end Sys2Proof.Laws.EncodeOpcode
end

