-- ==== Sys2Proof/Tests/Slice0.lean ====
section
/-! SUPPORT. Tests: command words and results from spec/95_test_vectors.md (rows named V1 to V7, S5, S6, P4), ill-formed
terms for every check of WellFormed, and, for every obligation with hypotheses, a witness that meets them together. -/

namespace Sys2Proof.Tests

open Sys2Proof Sys2Proof.Machine

/-- The base state B of V3, V5 and V6. -/
def base : State := { State.reset with x := ⟨0x07#8, 0x06#8, 0x05#8, 0x04#8, 0x02#8, 0x01#8, 0x10#8, 0x06#8⟩ }

/-- A state with a text from address 0 on. -/
def withText (cs : List Char) (s : State) : State := { s with txt := cs.zipIdx.map fun p => (p.2, charByte p.1) }

/-- Registers and response after one step that takes the word. -/
def answer (cw : CmdWord) (s : State) : Option (DateTime × RspWord) :=
  match step (presentNext cw s) with
  | .next t => some (t.x, t.rsp)
  | .fault _ => none
  | .refused _ => none

/-- The byte at an address after one step that takes the word. -/
def byteAfter (cw : CmdWord) (a : Nat) (s : State) : Option Byte :=
  match step (presentNext cw s) with
  | .next t => some (Memory.read t.txt a)
  | .fault _ => none
  | .refused _ => none

/-- The text of S5. -/
def isoText : List Char :=
  ['2', '0', '2', '1', '-', '0', '7', '-', '1', '5', 'T', '0', '8', ':', '0', '9', ':', '1', '0']

/-- The text of S6 without its prefix. -/
def httpText : List Char :=
  ['W', 'e', 'd', ',', ' ', '2', '1', ' ', 'O', 'c', 't', ' ', '2', '0', '1', '5', ' ',
   '0', '7', ':', '2', '8', ':', '0', '0', ' ', 'G', 'M', 'T']

/-- The text of S6. -/
def dateText : List Char := ['D', 'a', 't', 'e', ':', ' '] ++ httpText

/-! ### Decoding: words written out from the formats of 30_encoding.md R61 -/

theorem test_decode_enc : decode 0x01630000000000000000#80 = .ok (.enc 99#8) := by decide
theorem test_decode_dec : decode 0x02990000000000000000#80 = .ok (.dec 0x99#8) := by decide
theorem test_decode_setdt :
    decode 0x1008330C1F06173B3B63#80 = .ok (.setdt 2099#16 12#8 31#8 6#8 23#8 59#8 59#8 99#8) := by decide
theorem test_decode_lddt : decode 0x1107FF00000000000000#80 = .ok (.lddt .wd 0xFF#8) := by decide
theorem test_decode_rddt : decode 0x12050000000000000000#80 = .ok (.rddt .mon) := by decide
theorem test_decode_piso : decode 0x20000000000000000000#80 = .ok .piso := by decide
theorem test_decode_phttp : decode 0x21000000000000000000#80 = .ok .phttp := by decide
theorem test_decode_wrtxt : decode 0x300A5400000000000000#80 = .ok (.wrtxt 10#6 0x54#8) := by decide
theorem test_decode_rdtxt : decode 0x313F0000000000000000#80 = .ok (.rdtxt 63#6) := by decide
theorem test_encode_setdt :
    encode (.setdt 2021#16 7#8 15#8 4#8 8#8 9#8 10#8 0#8) = 0x1007E5070F0408090A00#80 := by decide
theorem test_table_word : decodeTableWord 80 0x12070000000000000000 = some (.rddt .wd) := by decide

/-! ### Ill-formed words and lines: V7, and one for every must-be-zero field -/

theorem test_legal_all_zero : legalWord 0#80 = false := by decide
theorem test_legal_all_ones : legalWord 0xFFFFFFFFFFFFFFFFFFFF#80 = false := by decide
theorem test_legal_opcode_03 : legalWord 0x03000000000000000000#80 = false := by decide
theorem test_legal_enc_bit63 : legalWord 0x012D8000000000000000#80 = false := by decide
theorem test_legal_dec_bit0 : legalWord 0x02450000000000000001#80 = false := by decide
theorem test_legal_lddt_idx8 : legalWord 0x11084500000000000000#80 = false := by decide
theorem test_legal_lddt_bit55 : legalWord 0x11014580000000000000#80 = false := by decide
theorem test_legal_rddt_idx8 : legalWord 0x12080000000000000000#80 = false := by decide
theorem test_legal_rddt_bit63 : legalWord 0x12078000000000000000#80 = false := by decide
theorem test_legal_piso_bit0 : legalWord 0x20000000000000000001#80 = false := by decide
theorem test_legal_phttp_bit71 : legalWord 0x21800000000000000000#80 = false := by decide
theorem test_legal_wrtxt_addr64 : legalWord 0x30404100000000000000#80 = false := by decide
theorem test_legal_wrtxt_bit55 : legalWord 0x303F4180000000000000#80 = false := by decide
theorem test_legal_rdtxt_addr64 : legalWord 0x31400000000000000000#80 = false := by decide
theorem test_legal_rdtxt_bit63 : legalWord 0x313F8000000000000000#80 = false := by decide
theorem test_legal_setdt_all_ones : legalWord 0x10FFFFFFFFFFFFFFFFFF#80 = true := by decide
theorem test_decode_names_the_opcode : decode 0x03000000000000000000#80 = .error (.unknownOpcode 0x03#8) := by decide
theorem test_decode_names_the_format : decode 0x30404100000000000000#80 = .error (.reservedBitSet .wrtxt) := by decide
theorem test_line_operand_too_large : (AsmLine.cmd .wrtxt [.num 64, .num 0]).wellFormed = false := by decide
theorem test_line_wrong_count : (AsmLine.cmd .lddt [.num 1]).wellFormed = false := by decide
theorem test_line_too_many : (AsmLine.cmd .piso [.num 1]).wellFormed = false := by decide
theorem test_line_register_in_a_byte : (AsmLine.cmd .enc [.reg .wd]).wellFormed = false := by decide
theorem test_line_character_too_large : (AsmLine.cmd .rddt [.chr 'T']).wellFormed = false := by decide
theorem test_line_character_no_ascii : (AsmLine.cmd .enc [.chr 'é']).wellFormed = false := by decide
theorem test_line_text_past_the_end : (AsmLine.txtstr 63 ['a', 'b']).wellFormed = false := by decide
theorem test_line_text_no_ascii : (AsmLine.txtstr 0 ['é']).wellFormed = false := by decide

/-! ### One step each -/

theorem test_enc_carry : answer 0x010A0000000000000000#80 base = some (base.x, 0x0010#16) := by decide
theorem test_enc_highest : answer 0x01630000000000000000#80 base = some (base.x, 0x0099#16) := by decide
theorem test_dec_ten : answer 0x02100000000000000000#80 base = some (base.x, 0x000A#16) := by decide
theorem test_dec_highest : answer 0x02990000000000000000#80 base = some (base.x, 0x0063#16) := by decide
theorem test_setdt_year_65535 : answer 0x10FFFF0C1F06173B3B63#80 base =
    some (⟨0x99#8, 0x59#8, 0x59#8, 0x23#8, 0x31#8, 0x12#8, 0x35#8, 0x06#8⟩, 0x4000#16) := by decide
theorem test_setdt_minute_60 : answer 0x1007E5070F04083C0A00#80 base =
    some (⟨0x07#8, 0x06#8, 0x05#8, 0x08#8, 0x15#8, 0x07#8, 0x21#8, 0x04#8⟩, 0x0000#16) := by decide
theorem test_lddt_unchecked : answer 0x1107FF00000000000000#80 base =
    some ({ base.x with wd := 0xFF#8 }, 0x0000#16) := by decide
theorem test_rddt : answer 0x12060000000000000000#80 base = some (base.x, 0x0010#16) := by decide
theorem test_piso_s5 : answer 0x20000000000000000000#80 (withText isoText base) =
    some (⟨0x00#8, 0x10#8, 0x09#8, 0x08#8, 0x15#8, 0x07#8, 0x21#8, 0x00#8⟩, 0x0000#16) := by decide
theorem test_piso_hour_24 :
    answer 0x20000000000000000000#80 (withText ['2', '0', '2', '1', '-', '0', '7', '-', '1', '5', 'T', '2', '4', ':',
      '0', '0', ':', '0', '0'] base) =
    some (⟨0x07#8, 0x06#8, 0x05#8, 0x04#8, 0x15#8, 0x07#8, 0x21#8, 0x00#8⟩, 0x0000#16) := by decide
theorem test_phttp_s6 : answer 0x21000000000000000000#80 (withText dateText base) =
    some (⟨0x00#8, 0x00#8, 0x28#8, 0x07#8, 0x21#8, 0x10#8, 0x15#8, 0x03#8⟩, 0x0000#16) := by decide
theorem test_phttp_unknown_names :
    answer 0x21000000000000000000#80 (withText (['X', 'y', 'z', ',', ' ', '2', '1', ' ', 'Q', 'r', 's'] ++
      httpText.drop 11) base) =
    some (⟨0x00#8, 0x00#8, 0x28#8, 0x07#8, 0x21#8, 0x12#8, 0x15#8, 0x05#8⟩, 0x0000#16) := by decide
theorem test_wrtxt_top : byteAfter 0x303FFF00000000000000#80 63 base = some 0xFF#8 := by decide
theorem test_wrtxt_only_there : byteAfter 0x300A5400000000000000#80 9 (withText isoText base) = some 0x35#8 := by decide
theorem test_rdtxt : answer 0x31090000000000000000#80 (withText isoText base) = some (base.x, 0x0035#16) := by decide
theorem test_illegal : answer 0x30404100000000000000#80 base = some (base.x, 0x8000#16) := by decide
theorem test_fetch_word : answer 0x01090000000000000000#80 base =
    (match step (base.withFetchWord 80 0x01090000000000000000) with
      | .next t => some (t.x, t.rsp)
      | .fault _ => none
      | .refused _ => none) := by decide
theorem test_names_in_order : (List.range 7).all (fun k => (wdLookup (fun _ => 0) 0 (charByte ((weekdayNames.getD k []).getD 0 ' '))
    (charByte ((weekdayNames.getD k []).getD 1 ' '))).1 = k) = true := by decide
theorem test_months_in_order : (List.range 12).all (fun k => (monLookup (fun _ => 0) 0
    (charByte ((monthNames.getD k []).getD 0 ' ')) (charByte ((monthNames.getD k []).getD 1 ' '))
    (charByte ((monthNames.getD k []).getD 2 ' '))).1 = k + 1) = true := by decide

/-! ### The assembler (30_encoding.md R70, R71) -/

theorem test_parse_setdt :
    parseLine ['S', 'E', 'T', 'D', 'T', ' ', '2', '0', '2', '1', ',', '7', ',', ' ', '0', 'x', '0', 'F', ',', '4', ',', '8',
      ',', '9', ',', '1', '0', ',', '0', ' ', ';', 'x'] =
    some [.cmd .setdt [.num 2021, .num 7, .num 15, .num 4, .num 8, .num 9, .num 10, .num 0]] := by decide
theorem test_parse_lddt : parseLine ['L', 'D', 'D', 'T', ' ', 'D', 'A', 'Y', ',', ' ', '\'', 'T', '\''] =
    some [.cmd .lddt [.reg .day, .chr 'T']] := by decide
theorem test_parse_txtstr : parseLine ['T', 'X', 'T', 'S', 'T', 'R', ' ', '2', ',', ' ', '"', 'a', ';', '"'] =
    some [.txtstr 2 ['a', ';']] := by decide
theorem test_parse_txtstr_no_character :
    parseLine ['T', 'X', 'T', 'S', 'T', 'R', ' ', '\'', '0', '\'', ',', ' ', '"', 'x', '"'] = none := by decide
theorem test_parse_quote_ends_a_word : parseLine ['E', 'N', 'C', '\'', 'T', '\''] = some [.cmd .enc [.chr 'T']] ∧
    parseLine ['T', 'X', 'T', 'S', 'T', 'R', '"', 'x', '"'] = some [.txtstr 0 ['x']] := by decide
theorem test_parse_unknown : parseLine ['N', 'O', 'P'] = none := by decide
theorem test_assemble_txtstr : assemble (.txtstr 62 ['2', '1']) = some [.wrtxt 62#6 0x32#8, .wrtxt 63#6 0x31#8] := by
  decide

/-! ### Witnesses: every hypothesis of every obligation can be met -/

/-- The state after one step that takes the word. -/
def afterStep (cw : CmdWord) (s : State) : State :=
  match step (presentNext cw s) with
  | .next t => t
  | .fault _ => s
  | .refused _ => s

/-- What exec leaves. -/
def afterExec (i : Instr) (s : State) : State :=
  match exec i s with
  | .next t => t
  | .fault _ => s
  | .refused _ => s

theorem witness_EncodeUndoesDecode : decode 0x31050000000000000000#80 = .ok (.rdtxt 5#6) := by decide

theorem witness_DecodeAgreesWithOpcodeTable : ∃ row ∈ opRows, row.selects 0x10FFFFFFFFFFFFFFFFFF#80 = true ∧
    decode 0x10FFFFFFFFFFFFFFFFFF#80 =
      .ok (.setdt 0xFFFF#16 0xFF#8 0xFF#8 0xFF#8 0xFF#8 0xFF#8 0xFF#8 0xFF#8) := by decide

theorem witness_IllegalByRule_each :
    IllegalByRule 0x32000000000000000000#80 ∧ IllegalByRule 0x01008000000000000000#80 ∧
    IllegalByRule 0x02000000000000000001#80 ∧ IllegalByRule 0x11080000000000000000#80 ∧
    IllegalByRule 0x11000080000000000000#80 ∧ IllegalByRule 0x12800000000000000000#80 ∧
    IllegalByRule 0x12008000000000000000#80 ∧ IllegalByRule 0x20800000000000000000#80 ∧
    IllegalByRule 0x21000000000000000001#80 ∧ IllegalByRule 0x30400000000000000000#80 ∧
    IllegalByRule 0x30000080000000000000#80 ∧ IllegalByRule 0x31800000000000000000#80 ∧
    IllegalByRule 0x31008000000000000000#80 := by
  refine ⟨?_, ?_, ?_, ?_, ?_, ?_, ?_, ?_, ?_, ?_, ?_, ?_, ?_⟩ <;> (simp only [IllegalByRule]; decide)

theorem witness_IllegalByRule_not : ¬ IllegalByRule 0x303FFF00000000000000#80 ∧
    (0x10FFFFFFFFFFFFFFFFFF#80).extractLsb' 72 8 = 0x10#8 := by
  simp only [IllegalByRule]; decide

theorem witness_codec : (0 : Nat) ≤ 99 ∧ (99 : Nat) ≤ 99 ∧ (98 : Nat) < 99 ∧ isBcd 0x99#8 = true ∧ isBcd 0x9A#8 = false ∧
    ((99#8).toNat ≤ 99) ∧ ¬ ((100#8).toNat ≤ 99) := by decide

theorem witness_opcode_with_a_bit_set :
    ((0x01008000000000000000#80).extractLsb' 72 8 = 0x01#8 ∧ (0x01008000000000000000#80).extractLsb' 0 64 ≠ 0#64) ∧
    ((0x02000000000000000001#80).extractLsb' 72 8 = 0x02#8 ∧ (0x02000000000000000001#80).extractLsb' 0 64 ≠ 0#64) ∧
    ((0x11080000000000000000#80).extractLsb' 72 8 = 0x11#8 ∧ (0x11080000000000000000#80).extractLsb' 67 5 ≠ 0#5) ∧
    ((0x12008000000000000000#80).extractLsb' 72 8 = 0x12#8 ∧ (0x12008000000000000000#80).extractLsb' 0 64 ≠ 0#64) ∧
    ((0x30400000000000000000#80).extractLsb' 72 8 = 0x30#8 ∧ (0x30400000000000000000#80).extractLsb' 70 2 ≠ 0#2) ∧
    ((0x31008000000000000000#80).extractLsb' 72 8 = 0x31#8 ∧ (0x31008000000000000000#80).extractLsb' 0 64 ≠ 0#64) := by
  decide

theorem witness_FieldsAfterTheFirstInvalidPlayNoPart :
    ∀ r : Reg, Reg.place r ≤ (setdtFields 2021 7 32 4 8 9 10 0).firstInvalid →
      (setdtFields 2021 7 32 4 8 9 10 0).inDomain r = (setdtFields 2021 7 32 99 99 99 99 0).inDomain r ∧
      (setdtFields 2021 7 32 4 8 9 10 0).byteFor r = (setdtFields 2021 7 32 99 99 99 99 0).byteFor r := by
  intro r; cases r <;> decide

theorem witness_SetDateTimePartialMutation :
    (setdtFields 2000 1 1 0 0 0 0 0).firstInvalid = 9 ∧ (setdtFields 2099 12 31 6 23 59 59 99).firstInvalid = 9 ∧
    Reg.place .yr < (setdtFields 2021 13 15 4 8 9 10 0).firstInvalid ∧
    ¬ Reg.place .mon < (setdtFields 2021 13 15 4 8 9 10 0).firstInvalid := by decide

theorem witness_SetdtStoresAValidDate_lowest : 2000 ≤ (2000#16).toNat ∧ (2000#16).toNat ≤ 2099 ∧ 1 ≤ (1#8).toNat ∧
    (1#8).toNat ≤ 12 ∧ 1 ≤ (1#8).toNat ∧ (1#8).toNat ≤ 31 ∧ (0#8).toNat ≤ 6 ∧ (0#8).toNat ≤ 23 ∧ (0#8).toNat ≤ 59 ∧
    (0#8).toNat ≤ 99 := by decide

theorem witness_SetdtStoresAValidDate_highest : 2000 ≤ (0xFFFF#16).toNat ∧ 2000 ≤ (2099#16).toNat ∧
    (2099#16).toNat ≤ 2099 ∧ 1 ≤ (12#8).toNat ∧ (12#8).toNat ≤ 12 ∧ 1 ≤ (31#8).toNat ∧ (31#8).toNat ≤ 31 ∧
    (6#8).toNat ≤ 6 ∧ (23#8).toNat ≤ 23 ∧ (59#8).toNat ≤ 59 ∧ (99#8).toNat ≤ 99 := by decide

/-- S3: each field in turn is the first invalid one. -/
theorem witness_SetdtFailsAtTheFirstInvalidField :
    (setdtFields 1999 7 15 4 8 9 10 0).firstInvalid = 1 ∧ (setdtFields 2021 13 15 4 8 9 10 0).firstInvalid = 2 ∧
    (setdtFields 2021 7 32 4 8 9 10 0).firstInvalid = 3 ∧ (setdtFields 2021 7 15 7 8 9 10 0).firstInvalid = 4 ∧
    (setdtFields 2021 7 15 4 24 9 10 0).firstInvalid = 5 ∧ (setdtFields 2021 7 15 4 8 60 10 0).firstInvalid = 6 ∧
    (setdtFields 2021 7 15 4 8 9 60 0).firstInvalid = 7 ∧ (setdtFields 2021 7 15 4 8 9 10 100).firstInvalid = 8 := by
  decide

theorem witness_LddtStoresTheByteAsGiven : Reg.validByte .wd 0x07#8 = false ∧ Reg.wd ≠ Reg.hun := by decide

theorem witness_RddtAnswersTheRawByte : (State.x { base with x := { base.x with yr := 0x21#8 } }).yr = 0x21#8 := by
  decide

theorem witness_text_written : Memory.wf (withText isoText base).txt = true ∧ Memory.wf base.txt = true ∧
    Memory.read (withText isoText base).txt 0 = 0x32#8 ∧ (63 : Nat) ≠ (0#6).toNat ∧ (63#6 : TxtAddr) ≠ 0#6 := by decide

/-- Both halves of the range of addresses no parser reads. -/
theorem witness_WrtxtWritesOneByte_unread :
    (4#6 : TxtAddr).toNat ∈ [4, 13, 19, 22, 25, 28] ∧ 31 ≤ (31#6 : TxtAddr).toNat ∧ Memory.wf base.txt = true ∧
    exec (.wrtxt 4#6 1#8) base = .next (afterExec (.wrtxt 4#6 1#8) base) ∧
    exec (.wrtxt 31#6 1#8) base = .next (afterExec (.wrtxt 31#6 1#8) base) :=
  ⟨by decide, by decide, by decide, rfl, rfl⟩

theorem witness_TheYearIsTruncatedToTwoDigits :
    2000 ≤ (setdtFields 2000 1 1 0 0 0 0 0).year ∧ (setdtFields 2099 1 1 0 0 0 0 0).year ≤ 2099 ∧
    (setdtFields 1999 1 1 0 0 0 0 0).year < 2000 ∧ (setdtFields 2100 1 1 0 0 0 0 0).year = 2100 ∧
    (setdtFields 2121 1 1 0 0 0 0 0).year = 2121 ∧ (setdtFields 65535 1 1 0 0 0 0 0).year = 65535 := by decide

theorem witness_SetdtAsItsRuleSays : (0x10FFFFFFFFFFFFFFFFFF#80).extractLsb' 72 8 = 0x10#8 ∧ 2000 ≤ (2021#16).toNat ∧
    ((13#8) = 0 ∨ (13#8) = 13) ∧ ((0#8) = 0 ∨ (0#8) = 32) ∧ 1 ≤ (12#8).toNat ∧ (12#8).toNat ≤ 12 := by decide

theorem witness_PisoOnAWellFormedText :
    let t := readTxt (withText isoText base)
    digitsAt t 2 = true ∧ digitsAt t 5 = true ∧ digitsAt t 8 = true ∧ digitsAt t 11 = true ∧ digitsAt t 14 = true ∧
    digitsAt t 17 = true ∧ 1 ≤ numberAt t 5 ∧ numberAt t 5 ≤ 12 ∧ 1 ≤ numberAt t 8 ∧ numberAt t 8 ≤ 31 ∧
    numberAt t 11 ≤ 23 ∧ numberAt t 14 ≤ 59 ∧ numberAt t 17 ≤ 59 := by decide

theorem witness_PhttpOnAWellFormedText :
    let t := readTxt (withText httpText base)
    (0#6 : TxtAddr) = (if t 0 = 0x44#8 then 6 else 0) ∧ weekdayAt t 0 3 ∧ monthAt t 8 10 ∧ digitsAt t 5 = true ∧
    digitsAt t 14 = true ∧ digitsAt t 17 = true ∧ digitsAt t 20 = true ∧ digitsAt t 23 = true ∧ 1 ≤ numberAt t 5 ∧
    numberAt t 5 ≤ 31 ∧ numberAt t 17 ≤ 23 ∧ numberAt t 20 ≤ 59 ∧ numberAt t 23 ≤ 59 := by
  simp only [weekdayAt, monthAt]; decide

theorem witness_PhttpOnAWellFormedText_prefixed :
    let t := readTxt (withText dateText base)
    (6#6 : TxtAddr) = (if t 0 = 0x44#8 then 6 else 0) ∧ weekdayAt t 6 3 ∧ monthAt t 14 10 ∧ digitsAt t 11 = true ∧
    digitsAt t 20 = true ∧ digitsAt t 23 = true ∧ digitsAt t 26 = true ∧ digitsAt t 29 = true ∧ 1 ≤ numberAt t 11 ∧
    numberAt t 11 ≤ 31 ∧ numberAt t 23 ≤ 23 ∧ numberAt t 26 ≤ 59 ∧ numberAt t 29 ≤ 59 := by
  simp only [weekdayAt, monthAt]; decide

/-- Both prefix skips. -/
theorem witness_PhttpGivesTheParsedFieldsToSetDateTime :
    (6#6 : TxtAddr) = (if readTxt (withText dateText base) 0 = 0x44#8 then 6 else 0) ∧
    (0#6 : TxtAddr) = (if readTxt (withText httpText base) 0 = 0x44#8 then 6 else 0) := by decide

/-- V6: names, undecided letters and fallbacks. -/
theorem test_namedBy :
    namedBy weekdayRows 5 (charByte 'W') [charByte 'e'] = [3] ∧
    namedBy weekdayRows 5 (charByte 'T') [charByte 'x'] = [2, 4] ∧
    namedBy weekdayRows 5 (charByte 'w') [charByte 'e'] = [5] ∧
    namedBy monthRows 12 (charByte 'J') [charByte 'a', charByte 'x'] = [1, 6, 7] ∧
    namedBy monthRows 12 (charByte 'M') [charByte 'x', charByte 'r'] = [3] ∧
    namedBy monthRows 12 (charByte 'A') [charByte 'x', charByte 'x'] = [4, 8] ∧
    namedBy monthRows 12 (charByte 'D') [charByte 'e', charByte 'c'] = [12] := by decide

/-- V5: separators and century differ, and the parser does not see it. -/
theorem witness_PisoReadsTwelveBytes :
    let m := (withText ['1', '9', '2', '1', '/', '0', '7', '/', '1', '5', ' ', '0', '8', '.', '0', '9', '.', '1', '0', 'Z'] base).txt
    (∀ a ∈ [2, 3, 5, 6, 8, 9, 11, 12, 14, 15, 17, 18], Memory.read m a = Memory.read (withText isoText base).txt a) ∧
    m ≠ (withText isoText base).txt := by decide

theorem witness_PhttpReadsFifteenOrSixteenBytes :
    let s := withText httpText base
    let m := Memory.write s.txt 12 0x31#8
    Memory.read m 0 = Memory.read s.txt 0 ∧
    (∀ k ∈ [0, 1, 5, 6, 8, 9, 10, 14, 15, 17, 18, 20, 21, 23, 24],
      Memory.read m ((if Memory.read s.txt 0 = 0x44#8 then 6 else 0) + k) =
        Memory.read s.txt ((if Memory.read s.txt 0 = 0x44#8 then 6 else 0) + k)) ∧ m ≠ s.txt := by decide

theorem witness_LeadingDSkipsSixCharacters :
    let t := readTxt (withText dateText base)
    let u := readTxt (withText httpText base)
    t 0 = 0x44#8 ∧ u 0 ≠ 0x44#8 ∧ ∀ k : TxtAddr, k ≤ 24 → u k = t (k + 6) := by decide

theorem witness_letters : charByte 't' ∉ ['T', 'S', 'M', 'W', 'F'].map charByte ∧
    charByte 'o' ∉ ['J', 'F', 'M', 'A', 'S', 'O', 'N'].map charByte ∧
    charByte 'x' ≠ charByte 'u' ∧ charByte 'x' ≠ charByte 'h' ∧ charByte 'x' ≠ charByte 'a' ∧
    charByte 'x' ≠ charByte 'r' ∧ charByte 'x' ≠ charByte 'y' ∧ charByte 'x' ≠ charByte 'p' ∧
    ¬ (charByte 'a' = charByte 'a' ∧ charByte 'x' = charByte 'n') ∧
    ¬ (charByte 'a' = charByte 'u' ∧ charByte 'x' = charByte 'n') ∧
    ¬ (charByte 'a' = charByte 'u' ∧ charByte 'x' = charByte 'l') := by decide

theorem witness_SixGarbageChunksAreSixIndependentDraws :
    let t := readTxt base
    digitsAt t 2 = false ∧ digitsAt t 5 = false ∧ digitsAt t 8 = false ∧ digitsAt t 11 = false ∧ digitsAt t 14 = false ∧
    digitsAt t 17 = false := by decide

/-- P4: the day chunk is `1x`. -/
theorem witness_PisoWithAGarbageDay :
    let t := readTxt { withText isoText base with txt := Memory.write (withText isoText base).txt 9 0x78#8 }
    digitsAt t 2 = true ∧ digitsAt t 5 = true ∧ digitsAt t 8 = false ∧ digitsAt t 11 = true ∧ digitsAt t 14 = true ∧
    digitsAt t 17 = true ∧ 1 ≤ numberAt t 5 ∧ numberAt t 5 ≤ 12 ∧ numberAt t 11 ≤ 23 ∧ numberAt t 14 ≤ 59 ∧
    numberAt t 17 ≤ 59 ∧ (isDigit 0x31#8 && isDigit 0x78#8) = false := by decide

theorem witness_PisoWithAGarbageYear : digitsAt (readTxt base) 2 = false ∧
    (isDigit (charByte 'x') && isDigit (charByte 'x')) = false := by decide

theorem witness_exec_of_each :
    exec .piso base = .next (afterExec .piso base) ∧ exec .phttp base = .next (afterExec .phttp base) ∧
    exec (.enc 0#8) base = .next (afterExec (.enc 0#8) base) ∧ Instr.enc 0#8 ≠ .piso ∧ Instr.enc 0#8 ≠ .phttp ∧
    exec (.wrtxt 63#6 1#8) base = .next (afterExec (.wrtxt 63#6 1#8) base) ∧ Memory.wf base.txt = true ∧
    Memory.read (afterExec (.wrtxt 63#6 1#8) base).txt 63 ≠ Memory.read base.txt 63 :=
  ⟨rfl, rfl, rfl, by decide, by decide, rfl, by decide, by decide⟩

theorem witness_WhoTouchesTheRegisters :
    exec (.lddt .wd 0#8) base = .next (afterExec (.lddt .wd 0#8) base) ∧
    (afterExec (.lddt .wd 0#8) base).x.get .wd ≠ base.x.get .wd ∧ (Instr.piso).mnemonic ≠ .rddt :=
  ⟨rfl, by decide, by decide⟩

theorem witness_ResponseWordForm : (∀ i, decode 0#80 ≠ .ok i) ∧ decode 0x20000000000000000000#80 = .ok .piso ∧
    (∀ r, (setdtFields 2021 7 15 4 8 9 10 0).inDomain r = true) :=
  ⟨fun i h => (nomatch (show Except.error (Illegal.unknownOpcode 0#8) = .ok i from h)), by decide,
    fun r => by cases r <;> decide⟩

theorem witness_StepRunsTheDecodedCommand :
    (presentNext 0x313F0000000000000000#80 base).inputs = .cmd 0x313F0000000000000000#80 :: [] ∧
    decode 0x313F0000000000000000#80 = .ok (.rdtxt 63#6) := by decide

theorem witness_NothingPresentedNothingChanges :
    base.inputs = [] ∧ quietPins.rst = false ∧ quietPins.cmdValid = false := by decide

theorem witness_EveryStepKeepsTheInvariant :
    (presentNext 0x303FFF00000000000000#80 base).Inv ∧
    step (presentNext 0x303FFF00000000000000#80 base) = .next (afterStep 0x303FFF00000000000000#80 base) ∧
    (afterStep 0x303FFF00000000000000#80 base).txt = [(63, 0xFF#8)] :=
  ⟨by unfold State.Inv; decide, rfl, by decide⟩

theorem witness_EveryEdgeKeepsTheInvariant : (inFlight base).Inv ∧
    edge quietPins true (inFlight base) = .next (presenting (inFlight base)) :=
  ⟨by unfold State.Inv; decide, edge_busy rfl rfl true⟩

theorem witness_OnlyLddtBreaksTheDomainInvariant : base.x.InDomain ∧ (Instr.setdt 2021 13 15 4 8 9 10 0).mnemonic ≠ .lddt ∧
    exec (.setdt 2021 13 15 4 8 9 10 0) base = .next (afterExec (.setdt 2021 13 15 4 8 9 10 0) base) ∧
    exec (.setdt 2021 7 15 4 8 9 10 0) base = .next (afterExec (.setdt 2021 7 15 4 8 9 10 0) base) ∧
    (afterExec (.setdt 2021 7 15 4 8 9 10 0) base).rsp = 0x4000#16 :=
  ⟨fun r => by cases r <;> decide, by decide, rfl, rfl, by decide⟩

theorem witness_ResetForgetsEverything :
    (State.inputs { base with inputs := [.rst] }) = .rst :: [] ∧
    (State.inputs { State.reset with inputs := [.rst] }) = .rst :: [] ∧
    (State.draws { base with inputs := [.rst] }) = (State.draws { State.reset with inputs := [.rst] }) ∧
    (State.x { base with inputs := [.rst] }) ≠ (State.x { State.reset with inputs := [.rst] }) := by decide

theorem witness_channel : (outputs false base).cmdReady = true ∧ ready base = true ∧ (inFlight base).busy = true ∧
    quietPins.rst = false ∧ (PinsIn.rst ⟨true, true, 0#80⟩) = true ∧
    (∀ w ∈ [(quietPins, false), (PinsIn.mk false true 0#80, false)], w.1.rst = false ∧ w.2 = false) := by decide

theorem witness_EveryWordGetsOneResponse :
    (respondAll [0x012D0000000000000000#80] base).map Prod.fst = some [0x0045#16] ∧
    (respondAll [0#80, 0x12060000000000000000#80] (afterStep 0x012D0000000000000000#80 base)).map Prod.fst =
      some [0x8000#16, 0x0010#16] := by decide

theorem witness_assembler : 62 + ['2', '1'].length ≤ 64 ∧ (∀ c ∈ ['2', '1'], c.toNat < 128) :=
  ⟨by simp, by simp⟩

/-- Each form of operand at the top of its field, and one above. -/
theorem witness_AssemblyErrorsAreTheOperandsThatDoNotFit :
    assemble (.cmd .lddt [.reg .wd, .num 255]) = some [.lddt .wd 0xFF#8] ∧ assemble (.cmd .lddt [.num 8, .num 0]) = none ∧
    assemble (.cmd .wrtxt [.num 63, .chr 'T']) = some [.wrtxt 63#6 0x54#8] ∧
    assemble (.cmd .wrtxt [.num 64, .num 0]) = none ∧ assemble (.cmd .enc [.num 256]) = none ∧
    assemble (.cmd .rdtxt [.chr '?']) = some [.rdtxt 63#6] ∧ assemble (.cmd .rdtxt [.chr '@']) = none ∧
    assemble (.cmd .enc [.reg .wd]) = none ∧ (assemble (.txtstr 63 ['x'])).isSome = true ∧
    assemble (.txtstr 64 ['x']) = none := by decide

end Sys2Proof.Tests
end

section
/-! The response word of every command and of every illegal word (30_encoding.md R68, R69): each command ends in one
`respond`, whose OK bit and DATA byte are named here once. -/

namespace Sys2Proof.Machine

/-- The OK bit of a command's response: SETDT with every operand in domain (30_encoding.md R68). -/
def okBit : Instr → Bool
  | .setdt year month day wd hour min sec hun =>
      validationOrder.all (setdtFields year month day wd hour min sec hun).inDomain
  | .enc _ => false
  | .dec _ => false
  | .lddt _ _ => false
  | .rddt _ => false
  | .piso => false
  | .phttp => false
  | .wrtxt _ _ => false
  | .rdtxt _ => false

/-- The DATA byte of a command's response, read in the state the command starts in (R68, R69). -/
def dataByte : Instr → State → Byte
  | .enc b, _ => enc b.toNat
  | .dec b, _ => dec b
  | .rddt r, s => readReg s r
  | .rdtxt a, s => readTxt s a
  | .setdt _ _ _ _ _ _ _ _, _ => 0x00#8
  | .lddt _ _, _ => 0x00#8
  | .piso, _ => 0x00#8
  | .phttp, _ => 0x00#8
  | .wrtxt _ _, _ => 0x00#8

/-- The channel's state plays no part in the DATA byte. -/
@[simp] theorem dataByte_idle (i : Instr) (s : State) : dataByte i (idle s) = dataByte i s := by
  cases i <;> rfl

theorem validationOrder_all (p : Reg → Bool) : validationOrder.all p = true ↔ ∀ r, p r = true := by
  have every_reg : ∀ r : Reg, r ∈ validationOrder := fun r => by cases r <;> decide
  simp only [List.all_eq_true, every_reg, forall_const]

theorem okBit_eq_true_iff (i : Instr) : okBit i = true ↔ ∃ year month day wd hour min sec hun,
    i = .setdt year month day wd hour min sec hun ∧
    ∀ r, (setdtFields year month day wd hour min sec hun).inDomain r = true := by
  constructor
  · intro h
    cases i with
    | setdt => exact ⟨_, _, _, _, _, _, _, _, rfl, (validationOrder_all _).1 h⟩
    | enc | dec | lddt | rddt | piso | phttp | wrtxt | rdtxt => cases h
  · rintro ⟨_, _, _, _, _, _, _, _, rfl, h⟩
    exact (validationOrder_all _).2 h

/-- SetDateTime returns the OK bit of SETDT (41_buffer.md R94). -/
theorem setDateTime_okBit (year : BitVec 16) (month day wd hour min sec hun : Byte) (x : DateTime) :
    (setDateTime (setdtFields year month day wd hour min sec hun) x).2 =
      okBit (.setdt year month day wd hour min sec hun) :=
  setDateTime_ok _ x

/-- Every command completes in every state, and the last thing it does is respond (R69). -/
theorem exec_responds (i : Instr) (s : State) :
    ∃ u, exec i s = .next (respond (okBit i) (dataByte i s) u) := by
  cases i with
  | enc b => exact ⟨_, exec_enc b s⟩
  | dec b => exact ⟨_, exec_dec b s⟩
  | setdt => rw [exec_setdt, setDateTime_okBit]; exact ⟨_, rfl⟩
  | lddt r b => exact ⟨_, exec_lddt r b s⟩
  | rddt r => exact ⟨_, exec_rddt r s⟩
  | piso => exact ⟨_, exec_piso s⟩
  | phttp => exact ⟨_, exec_phttp s⟩
  | wrtxt a b => exact ⟨_, exec_wrtxt a b s⟩
  | rdtxt a => exact ⟨_, exec_rdtxt a s⟩

/-- The step that takes a legal word ends with the response of its command. -/
theorem step_legal {cw : CmdWord} {i : Instr} (h : decode cw = .ok i) (s : State) :
    ∃ t, step (presentNext cw s) = .next t ∧ t.rsp = rspWord false (okBit i) (dataByte i s) := by
  obtain ⟨u, hu⟩ := exec_responds i (idle s)
  exact ⟨_, by rw [step_presentNext, runWord_ok h, hu, mapNext_next], by simp⟩

/-- The step that takes an illegal word raises Illegal and presents that (R64, 60_exceptions.md R151). -/
theorem step_illegal {cw : CmdWord} {e : Illegal} (h : decode cw = .error e) (s : State) :
    step (presentNext cw s) = .next (presenting (raiseIllegal (idle s))) := by
  rw [step_presentNext, runWord_illegal h, mapNext_next]

theorem rspWord_illegal : rspWord true false 0x00#8 = 0x8000#16 := by decide

/-- The response of SETDT: 0x4000 or 0x0000 (R69). -/
theorem rspWord_okBit (ok : Bool) : rspWord false ok 0x00#8 = if ok then 0x4000#16 else 0x0000#16 := by
  cases ok <;> decide

theorem rspWord_ok_eq_one_iff (ill ok : Bool) (b : Byte) :
    (rspWord ill ok b).extractLsb' 14 1 = 1#1 ↔ ok = true := by
  rw [rspWord_ok]
  exact BitVec.ofBool_eq_iff_eq (b' := true)

/-- Settles O39: each command's one `respond`, its word read off the table. -/
theorem responseOfEachCommand : Obligations.ResponseOfEachCommand := by
  refine ⟨fun cw s illegal => ?_, fun i s => ?_⟩
  · cases h : decode cw with
    | ok i => exact absurd h (illegal i)
    | error e => exact ⟨_, step_illegal h s, rspWord_illegal⟩
  · obtain ⟨u, hu⟩ := exec_responds i s
    refine ⟨_, hu, ?_⟩
    rw [respond_rsp]
    cases i with
    | setdt => exact rspWord_okBit _
    | enc | dec | rddt | rdtxt | lddt | piso | phttp | wrtxt => exact rspWord_byte _

/-- Settles O40: the fields of the one response word a legal and an illegal word get. -/
theorem responseWordForm : Obligations.ResponseWordForm := by
  intro cw s
  cases h : decode cw with
  | error e => exact ⟨_, step_illegal h s, by simp [rspWord_reserved, rspWord_ill, rspWord_ok, rspWord_data]⟩
  | ok i =>
    obtain ⟨t, ht, hrsp⟩ := step_legal h s
    have legal : ¬ ∀ j, Except.ok (ε := Illegal) i ≠ .ok j := fun illegal => illegal i rfl
    refine ⟨t, ht, ?_⟩
    rw [hrsp]
    refine ⟨rspWord_reserved .., ?_, ?_, fun illegal => absurd illegal legal, ?_⟩
    · exact iff_of_false (by rw [rspWord_ill]; decide) legal
    · rw [rspWord_ok_eq_one_iff, okBit_eq_true_iff]
      simp only [Except.ok.injEq]
    · rw [rspWord_data]
      cases i <;> rfl

end Sys2Proof.Machine
end

section
/-! The byte codec (40_codec.md): the nibbles of a byte, what `enc` and `dec` give (R80 to R83), the words of format B
(30_encoding.md R61), and from these the commands ENC and DEC (R85, R86). -/

namespace Sys2Proof

/-- The high nibble as a number. -/
theorem hi_eq_div (b : Byte) : hi b = b.toNat / 16 := by
  rw [hi, BitVec.extractLsb'_toNat, Nat.shiftRight_eq_div_pow]
  omega

/-- The low nibble as a number. -/
theorem lo_eq_mod (b : Byte) : lo b = b.toNat % 16 := by
  rw [lo, BitVec.extractLsb'_toNat, Nat.shiftRight_zero]

/-- A byte is its two nibbles. -/
theorem toNat_eq_nibbles (b : Byte) : b.toNat = 16 * hi b + lo b := by
  rw [hi_eq_div, lo_eq_mod]
  exact (Nat.div_add_mod _ _).symm

/-- The operand of a word of format B (30_encoding.md R61). -/
theorem formatB_operand (op b : Byte) : field 64 8 (op ++ b ++ 0#64) = b := by
  rw [field, extract_append_hi _ _ (by decide), extract_append_lo _ _ (by decide)]
  exact extract_all b

/-- The must-be-zero field of a word of format B is zero (R61). -/
theorem formatB_zero (op b : Byte) : zeroField 0 64 (op ++ b ++ 0#64) = true := by
  rw [zeroField, field, extract_append_lo _ _ (by decide)]
  decide

/-- A must-be-zero field with a bit set (R64 (b)). -/
theorem zeroField_of_ne {start w : Nat} {cw : CmdWord} (h : cw.extractLsb' start w ≠ 0#w) :
    zeroField start w cw = false :=
  decide_eq_false h

/-- The decoder on the opcode of ENC (R61, R63). -/
theorem decode_of_opcode_enc {cw : CmdWord} (h : field 72 8 cw = 0x01#8) :
    decode cw = ifZero (zeroField 0 64 cw) (.enc (field 64 8 cw)) := by
  rw [decode, h]
  rfl

/-- The decoder on the opcode of DEC (R61, R63). -/
theorem decode_of_opcode_dec {cw : CmdWord} (h : field 72 8 cw = 0x02#8) :
    decode cw = ifZero (zeroField 0 64 cw) (.dec (field 64 8 cw)) := by
  rw [decode, h]
  rfl

/-- The word of ENC decodes to it (40_codec.md R85). -/
theorem decode_enc_word (b : Byte) : decode (0x01#8 ++ b ++ 0#64) = .ok (.enc b) := by
  rw [decode_of_opcode_enc (cw := 0x01#8 ++ b ++ 0#64) (Laws.EncodeOpcode.enc b), formatB_zero, formatB_operand]
  rfl

/-- The word of DEC decodes to it (40_codec.md R86). -/
theorem decode_dec_word (b : Byte) : decode (0x02#8 ++ b ++ 0#64) = .ok (.dec b) := by
  rw [decode_of_opcode_dec (cw := 0x02#8 ++ b ++ 0#64) (Laws.EncodeOpcode.dec b), formatB_zero, formatB_operand]
  rfl

end Sys2Proof

namespace Sys2Proof.Machine

/-- `enc(d)` as a number (40_codec.md R80). -/
theorem enc_toNat {d : Nat} (h : d ≤ 99) : (enc d).toNat = 16 * (d / 10) + d % 10 := by
  rw [enc_of_le h, bcd, BitVec.toNat_ofNat]
  omega

/-- The high nibble of `enc(d)` is the tens digit (R80). -/
theorem hi_enc {d : Nat} (h : d ≤ 99) : hi (enc d) = d / 10 := by
  rw [hi_eq_div, enc_toNat h]
  omega

/-- The low nibble of `enc(d)` is the ones digit (R80). -/
theorem lo_enc {d : Nat} (h : d ≤ 99) : lo (enc d) = d % 10 := by
  rw [lo_eq_mod, enc_toNat h]
  omega

/-- Valid BCD by the nibbles (R82). -/
theorem isBcd_iff (b : Byte) : isBcd b = true ↔ hi b ≤ 9 ∧ lo b ≤ 9 := by
  simp only [isBcd, Bool.and_eq_true, decide_eq_true_eq]

/-- `enc` of a number up to 99 is valid BCD (R82). -/
theorem isBcd_enc {d : Nat} (h : d ≤ 99) : isBcd (enc d) = true := by
  rw [isBcd_iff, hi_enc h, lo_enc h]
  omega

/-- `enc` of the number a valid BCD byte shows is that byte (R82, R84). -/
theorem enc_digits {b : Byte} (h : isBcd b = true) : enc (10 * hi b + lo b) = b := by
  obtain ⟨hhi, hlo⟩ := (isBcd_iff b).1 h
  apply BitVec.eq_of_toNat_eq
  rw [enc_toNat (by omega), toNat_eq_nibbles b]
  omega

/-- The valid BCD bytes are the values of `enc` on 0 to 99 (R82). -/
theorem isBcd_iff_enc (b : Byte) : isBcd b = true ↔ ∃ d : Nat, d ≤ 99 ∧ enc d = b := by
  constructor
  · intro h
    obtain ⟨hhi, hlo⟩ := (isBcd_iff b).1 h
    exact ⟨10 * hi b + lo b, by omega, enc_digits h⟩
  · rintro ⟨d, hd, rfl⟩
    exact isBcd_enc hd

/-- The digits of `enc(d)` show `d` (R80). -/
theorem digits_enc {d : Nat} (h : d ≤ 99) : 10 * hi (enc d) + lo (enc d) = d := by
  rw [hi_enc h, lo_enc h]
  omega

/-- Different numbers up to 99 have different BCD bytes: the digits give the number back. -/
theorem enc_toNat_injOn : Set.InjOn (fun d => (enc d).toNat) (Finset.range 100) := by
  intro d hd e he heq
  rw [Finset.mem_coe, Finset.mem_range] at hd he
  rw [← digits_enc (d := d) (by omega), BitVec.eq_of_toNat_eq heq, digits_enc (by omega)]

/-- The valid BCD bytes as numbers are the image of `enc` on 0 to 99 (R82). -/
theorem filter_isBcd_eq_image : (Finset.range 256).filter (fun n => isBcd (BitVec.ofNat 8 n) = true) =
    (Finset.range 100).image fun d => (enc d).toNat := by
  ext n
  simp only [Finset.mem_filter, Finset.mem_image, Finset.mem_range]
  constructor
  · rintro ⟨hn, h⟩
    obtain ⟨d, hd, henc⟩ := (isBcd_iff_enc _).1 h
    exact ⟨d, by omega, by rw [henc, BitVec.toNat_ofNat]; omega⟩
  · rintro ⟨d, hd, rfl⟩
    exact ⟨(enc d).isLt, by rw [BitVec.ofNat_toNat, BitVec.setWidth_eq]; exact isBcd_enc (by omega)⟩

/-- There are 100 valid BCD bytes, one for each number up to 99 (R82). -/
theorem countP_isBcd : (List.range 256).countP (fun n => isBcd (BitVec.ofNat 8 n)) = 100 :=
  calc (List.range 256).countP (fun n => isBcd (BitVec.ofNat 8 n))
    _ = Nat.count (fun n => isBcd (BitVec.ofNat 8 n) = true) 256 := by simp only [Nat.count, Bool.decide_eq_true]
    _ = 100 := by
        rw [Nat.count_eq_card_filter_range, filter_isBcd_eq_image, Finset.card_image_of_injOn enc_toNat_injOn,
          Finset.card_range]

/-- `dec` of a valid BCD byte is the number its digits show (R82). -/
theorem dec_toNat {b : Byte} (h : isBcd b = true) : (dec b).toNat = 10 * hi b + lo b := by
  obtain ⟨hhi, hlo⟩ := (isBcd_iff b).1 h
  rw [dec, if_pos h, BitVec.toNat_ofNat]
  omega

/-- `dec` by the two cases of R82 and R83, at the width of a response word. -/
theorem setWidth_dec (b : Byte) : (dec b).setWidth 16 =
    if hi b ≤ 9 ∧ lo b ≤ 9 then BitVec.ofNat 16 (10 * hi b + lo b) else (Config.decNonBcd b).setWidth 16 := by
  split
  next h =>
    apply BitVec.eq_of_toNat_eq
    rw [BitVec.toNat_setWidth, dec_toNat ((isBcd_iff b).2 h), BitVec.toNat_ofNat]
  next h => rw [dec, if_neg (mt (isBcd_iff b).1 h)]

/-- `enc` of a byte by the two cases of R80 and R81. -/
theorem enc_byte (b : Byte) : enc b.toNat = if b.toNat ≤ 99 then bcd b.toNat else Config.encOver b := by
  split
  next h => exact enc_of_le h
  next h => rw [enc, if_neg h, BitVec.ofNat_toNat, BitVec.setWidth_eq]

/-- `respond(0, 0, DATA)` changes the response register alone (30_encoding.md R69). -/
theorem respond_byte (data : Byte) (s : State) : respond false data s = { s with rsp := data.setWidth 16 } := by
  rw [respond, rspWord_byte]

/-- ENC in every state (40_codec.md R85). -/
theorem exec_enc_eq (b : Byte) (s : State) : exec (.enc b) s =
    .next { s with rsp := (if b.toNat ≤ 99 then bcd b.toNat else Config.encOver b).setWidth 16 } := by
  rw [exec_enc, respond_byte, enc_byte]

/-- DEC in every state (40_codec.md R86). -/
theorem exec_dec_eq (b : Byte) (s : State) : exec (.dec b) s = .next { s with
    rsp := if hi b ≤ 9 ∧ lo b ≤ 9 then BitVec.ofNat 16 (10 * hi b + lo b) else (Config.decNonBcd b).setWidth 16 } := by
  rw [exec_dec, respond_byte, setWidth_dec]

/-- A word that does not decode is answered as illegal (30_encoding.md R64). -/
theorem answeredIllegal_of_decode {cw : CmdWord} {e : Illegal} (h : decode cw = .error e) (s : State) :
    AnsweredIllegal cw s := by
  rw [AnsweredIllegal, step_illegal h, raiseIllegal, rspWord_illegal]
  rfl

/-- The step that takes the word of a command whose meaning writes the response register alone. -/
theorem step_of_exec {cw : CmdWord} {i : Instr} {w : RspWord} (h : decode cw = .ok i) (s : State)
    (hexec : exec i (idle s) = .next { idle s with rsp := w }) :
    step (presentNext cw s) = .next { s with busy := false, rspValid := true, rsp := w } := by
  rw [step_presentNext, runWord_ok h, hexec]
  rfl

/-- Settles O7: `enc` and `10*hi + lo` undo each other, between the numbers 0 to 99
and the bytes with both nibbles at most 9. -/
theorem validBcdBytesAndTheirValues : Obligations.ValidBcdBytesAndTheirValues := by
  refine ⟨isBcd_iff, isBcd_iff_enc, countP_isBcd, fun b h => ?_, by decide⟩
  obtain ⟨hhi, hlo⟩ := (isBcd_iff b).1 h
  exact ⟨dec_toNat h, by rw [dec_toNat h]; omega⟩

/-- Settles O6: the nibbles of `enc(d)` are the digits of `d`. -/
theorem encPacksTheTwoDigits : Obligations.EncPacksTheTwoDigits := by
  refine ⟨fun d h => ⟨hi_enc h, lo_enc h, enc_toNat h, ?_⟩, by decide⟩
  exact (isBcd_iff _).1 (isBcd_enc h)

/-- Settles O9: the decoder on the opcode of ENC, and its one response. -/
theorem encAnswersTheBcdByte : Obligations.EncAnswersTheBcdByte := by
  refine ⟨fun b s => ⟨decode_enc_word b, exec_enc_eq b s⟩, fun cw s hop hbit => ?_, by decide, by decide, fun s => ?_⟩
  · refine answeredIllegal_of_decode (e := .reservedBitSet .enc) ?_ s
    rw [decode_of_opcode_enc hop, zeroField_of_ne hbit]
    rfl
  · exact step_of_exec (decode_enc_word 45#8) s (exec_enc_eq 45#8 (idle s))

/-- Settles O10: the decoder on the opcode of DEC, and its one response. -/
theorem decAnswersTheNumber : Obligations.DecAnswersTheNumber := by
  refine ⟨fun b s => ⟨decode_dec_word b, exec_dec_eq b s⟩, fun cw s hop hbit => ?_,
    fun s => ⟨exec_dec_eq 0x00#8 s, exec_dec_eq 0x99#8 s⟩, fun s => ?_⟩
  · refine answeredIllegal_of_decode (e := .reservedBitSet .dec) ?_ s
    rw [decode_of_opcode_dec hop, zeroField_of_ne hbit]
    rfl
  · exact step_of_exec (decode_dec_word 0x45#8) s (exec_dec_eq 0x45#8 (idle s))

end Sys2Proof.Machine
end

section
/-! The words of formats D, IB and I (30_encoding.md R61): SETDT, LDDT and RDDT decode to their operands, and a set
must-be-zero bit does not decode. -/

namespace Sys2Proof

/-- The decoder on the opcode of SETDT: no must-be-zero field (R61, R63). -/
theorem decode_of_opcode_setdt {cw : CmdWord} (h : field 72 8 cw = 0x10#8) :
    decode cw = .ok (.setdt (field 56 16 cw) (field 48 8 cw) (field 40 8 cw) (field 32 8 cw) (field 24 8 cw)
      (field 16 8 cw) (field 8 8 cw) (field 0 8 cw)) := by
  rw [decode, h]
  rfl

/-- The decoder on the opcode of LDDT (R61, R63). -/
theorem decode_of_opcode_lddt {cw : CmdWord} (h : field 72 8 cw = 0x11#8) :
    decode cw = ifZero (zeroField 67 5 cw && zeroField 0 56 cw) (.lddt (.ofIdx (field 64 3 cw)) (field 56 8 cw)) := by
  rw [decode, h]
  rfl

/-- The decoder on the opcode of RDDT (R61, R63). -/
theorem decode_of_opcode_rddt {cw : CmdWord} (h : field 72 8 cw = 0x12#8) :
    decode cw = ifZero (zeroField 67 5 cw && zeroField 0 64 cw) (.rddt (.ofIdx (field 64 3 cw))) := by
  rw [decode, h]
  rfl

/-- Two must-be-zero fields, one of them with a bit set (R64 (b)). -/
theorem zeroField_and_of_ne {start w start' w' : Nat} {cw : CmdWord}
    (h : cw.extractLsb' start w ≠ 0#w ∨ cw.extractLsb' start' w' ≠ 0#w') :
    (zeroField start w cw && zeroField start' w' cw) = false :=
  Bool.and_eq_false_iff.2 (h.imp zeroField_of_ne zeroField_of_ne)

/-- The word of SETDT decodes to it (41_buffer.md R94). -/
theorem decode_setdt_word (year : BitVec 16) (month day wd hour min sec hun : Byte) :
    decode (0x10#8 ++ year ++ month ++ day ++ wd ++ hour ++ min ++ sec ++ hun) =
      .ok (.setdt year month day wd hour min sec hun) := by
  rw [decode_of_opcode_setdt (cw := 0x10#8 ++ year ++ month ++ day ++ wd ++ hour ++ min ++ sec ++ hun)
    (Laws.EncodeOpcode.setdt year month day wd hour min sec hun)]
  simp (disch := decide) only [field, extract_append_hi, extract_append_lo, Nat.reduceSub, extract_all]

/-- The word of LDDT decodes to it (41_buffer.md R95). -/
theorem decode_lddt_word (r : Reg) (b : Byte) : decode (0x11#8 ++ 0#5 ++ r.idx ++ b ++ 0#56) = .ok (.lddt r b) := by
  rw [decode_of_opcode_lddt (cw := 0x11#8 ++ 0#5 ++ r.idx ++ b ++ 0#56) (Laws.EncodeOpcode.lddt r b)]
  simp (disch := decide) only [zeroField, field, extract_append_hi, extract_append_lo, Nat.reduceSub, extract_all,
    Reg.ofIdx_idx]
  rfl

/-- The word of RDDT decodes to it (41_buffer.md R96). -/
theorem decode_rddt_word (r : Reg) : decode (0x12#8 ++ 0#5 ++ r.idx ++ 0#64) = .ok (.rddt r) := by
  rw [decode_of_opcode_rddt (cw := 0x12#8 ++ 0#5 ++ r.idx ++ 0#64) (Laws.EncodeOpcode.rddt r)]
  simp (disch := decide) only [zeroField, field, extract_append_hi, extract_append_lo, Nat.reduceSub, extract_all,
    Reg.ofIdx_idx]
  rfl

end Sys2Proof
end

section
/-! SetDateTime (41_buffer.md R90 to R93): the fields' domains as inequalities, the number each field is stored as, the
first field out of domain, and the procedure as its table. -/

namespace Sys2Proof.Machine

/-! ### The domains of R90 -/

@[simp] theorem yearOk_iff (v : Int) : yearOk v = true ↔ 2000 ≤ v := decide_eq_true_iff

theorem within_iff (a b v : Int) : within a b v = true ↔ a ≤ v ∧ v ≤ b := by
  simp only [within, Bool.and_eq_true, decide_eq_true_eq]

@[simp] theorem monthOk_iff (v : Int) : monthOk v = true ↔ 1 ≤ v ∧ v ≤ 12 := within_iff ..
@[simp] theorem dayOk_iff (v : Int) : dayOk v = true ↔ 1 ≤ v ∧ v ≤ 31 := within_iff ..
@[simp] theorem wdOk_iff (v : Int) : wdOk v = true ↔ 0 ≤ v ∧ v ≤ 6 := within_iff ..
@[simp] theorem hourOk_iff (v : Int) : hourOk v = true ↔ 0 ≤ v ∧ v ≤ 23 := within_iff ..
@[simp] theorem minOk_iff (v : Int) : minOk v = true ↔ 0 ≤ v ∧ v ≤ 59 := within_iff ..
@[simp] theorem secOk_iff (v : Int) : secOk v = true ↔ 0 ≤ v ∧ v ≤ 59 := within_iff ..
@[simp] theorem hunOk_iff (v : Int) : hunOk v = true ↔ 0 ≤ v ∧ v ≤ 99 := within_iff ..

/-! ### The byte of a field -/

/-- The number a field in domain is stored as (R90, last column; R93 for the year). -/
def Fields.number (f : Fields) : Reg → Nat
  | .yr => (f.year % 100).toNat
  | .mon => f.month.toNat
  | .day => f.day.toNat
  | .wd => f.wd.toNat
  | .hr => f.hour.toNat
  | .min => f.min.toNat
  | .sec => f.sec.toNat
  | .hun => f.hun.toNat

theorem Fields.byteFor_eq_enc (f : Fields) (r : Reg) : f.byteFor r = enc (f.number r) := by
  cases r <;> rfl

/-- A field in domain has two digits. -/
theorem Fields.number_le {f : Fields} {r : Reg} (h : f.inDomain r = true) : f.number r ≤ 99 := by
  cases r <;> simp [Fields.inDomain, Fields.number] at h ⊢ <;> omega

theorem Fields.byteFor_eq_bcd {f : Fields} {r : Reg} (h : f.inDomain r = true) : f.byteFor r = bcd (f.number r) := by
  rw [Fields.byteFor_eq_enc, enc_of_le (Fields.number_le h)]

/-- `dec` gives a stored field's number back (40_codec.md R84). -/
theorem Fields.dec_byteFor {f : Fields} {r : Reg} (h : f.inDomain r = true) :
    (dec (f.byteFor r)).toNat = f.number r := by
  rw [Fields.byteFor_eq_enc, dec_toNat (isBcd_enc (Fields.number_le h)), digits_enc (Fields.number_le h)]

/-- The byte of a field in domain is valid for its register (10_state.md R21, 41_buffer.md R91). -/
theorem Fields.validByte_byteFor {f : Fields} {r : Reg} (h : f.inDomain r = true) :
    Reg.validByte r (f.byteFor r) = true := by
  have shows : (10 * hi (enc (f.number r)) + lo (enc (f.number r)) : Int) = f.number r := by
    exact_mod_cast digits_enc (Fields.number_le h)
  rw [Fields.byteFor_eq_enc, Reg.validByte, isBcd_enc (Fields.number_le h), shows, Bool.true_and]
  cases r <;> simp [Fields.inDomain, Fields.number, within_iff] at h ⊢ <;> omega

/-! ### The first field out of domain (R92) -/

/-- A register's field and all before it, by their places in the order of validation (R90). -/
theorem Fields.passed_iff (f : Fields) (r : Reg) :
    f.passed r = true ↔ ∀ r', Reg.place r' ≤ Reg.place r → f.inDomain r' = true := by
  have mem_take : ∀ r', r' ∈ validationOrder.take (Reg.place r) ↔ Reg.place r' ≤ Reg.place r := fun r' => by
    cases r <;> cases r' <;> decide
  simp only [Fields.passed, List.all_eq_true, mem_take]

theorem Fields.passed_of_inDomain {f : Fields} (h : ∀ r, f.inDomain r = true) (r : Reg) : f.passed r = true :=
  (f.passed_iff r).2 fun r' _ => h r'

/-- A field and all before it are in domain exactly when its place is before the first field out of domain. -/
theorem Fields.passed_iff_place_lt (f : Fields) (r : Reg) :
    f.passed r = true ↔ Reg.place r < f.firstInvalid := by
  have place_le : Reg.place r ≤ validationOrder.length := by cases r <;> decide
  have findIdx_eq_length_iff : (validationOrder.take (Reg.place r)).findIdx (fun r => !f.inDomain r) =
      (validationOrder.take (Reg.place r)).length ↔ f.passed r = true := by
    simp only [List.findIdx_eq_length, Bool.not_eq_false', Fields.passed, List.all_eq_true]
  rw [← findIdx_eq_length_iff, List.findIdx_take, List.length_take, Fields.firstInvalid]
  omega

/-- The first field out of domain is the one at whose place it stands (R92). -/
theorem Fields.firstInvalid_eq_place {f : Fields} {r : Reg} (bad : f.inDomain r = false)
    (before : ∀ r', Reg.place r' < Reg.place r → f.inDomain r' = true) : f.firstInvalid = Reg.place r := by
  have place_pos : 1 ≤ Reg.place r := by cases r <;> decide
  have index_lt : Reg.place r - 1 < validationOrder.length := by cases r <;> decide
  have get_index : validationOrder[Reg.place r - 1] = r := by cases r <;> rfl
  have place_get : ∀ (j : Nat) (hj : j < validationOrder.length), Reg.place validationOrder[j] = j + 1 := by decide
  have findIdx_eq : validationOrder.findIdx (fun r => !f.inDomain r) = Reg.place r - 1 := by
    refine (List.findIdx_eq index_lt).2 ⟨by rw [get_index, bad]; rfl, fun j hj => ?_⟩
    rw [before _ (by rw [place_get]; omega)]
    rfl
  rw [Fields.firstInvalid, findIdx_eq, Nat.sub_add_cancel place_pos]

theorem Fields.firstInvalid_eq_one {f : Fields} (hyear : f.inDomain .yr = false) : f.firstInvalid = 1 :=
  Fields.firstInvalid_eq_place hyear fun r' hr' => by cases r' <;> exact absurd hr' (by decide)

theorem Fields.firstInvalid_eq_two {f : Fields} (hyear : f.inDomain .yr = true) (hmonth : f.inDomain .mon = false) :
    f.firstInvalid = 2 :=
  Fields.firstInvalid_eq_place hmonth fun r' hr' => by
    cases r' with
    | yr => exact hyear
    | mon | day | wd | hr | min | sec | hun => exact absurd hr' (by decide)

theorem Fields.firstInvalid_eq_three {f : Fields} (hyear : f.inDomain .yr = true) (hmonth : f.inDomain .mon = true)
    (hday : f.inDomain .day = false) : f.firstInvalid = 3 :=
  Fields.firstInvalid_eq_place hday fun r' hr' => by
    cases r' with
    | yr => exact hyear
    | mon => exact hmonth
    | day | wd | hr | min | sec | hun => exact absurd hr' (by decide)

/-- R92's `k` is at most 9. -/
theorem Fields.firstInvalid_le (f : Fields) : f.firstInvalid ≤ 9 :=
  Nat.succ_le_succ List.findIdx_le_length

/-! ### The procedure (R91) -/

/-- SetDateTime is the fields' checks and stores in the order of R90. -/
theorem setDateTime_eq_storeInOrder (f : Fields) (x : DateTime) :
    setDateTime f x = storeInOrder (validationOrder.map fun r => (f.inDomain r, r, f.byteFor r)) x := by
  simp only [setDateTime, ite_not, validationOrder, List.map, storeInOrder, Fields.inDomain, Fields.byteFor]

/-- A row's byte plays no part when its check fails. -/
theorem storeInOrder_map_congr {ok : Reg → Bool} {b b' : Reg → Byte} (h : ∀ r, ok r = true → b r = b' r)
    (rs : List Reg) (x : DateTime) :
    storeInOrder (rs.map fun r => (ok r, r, b r)) x = storeInOrder (rs.map fun r => (ok r, r, b' r)) x := by
  induction rs generalizing x with
  | nil => rfl
  | cons r rs ih =>
    simp only [List.map_cons, storeInOrder]
    split
    next hok => rw [h r hok, ih]
    next => rfl

/-- What SetDateTime leaves in a register, by the first field out of domain (R92). -/
theorem setDateTime_get_place (f : Fields) (x : DateTime) (r : Reg) :
    (setDateTime f x).1.get r = if Reg.place r < f.firstInvalid then f.byteFor r else x.get r := by
  rw [setDateTime_get]
  simp only [Fields.passed_iff_place_lt]

/-- SetDateTime returns true exactly when there is no field out of domain (R92). -/
theorem setDateTime_ok_iff (f : Fields) (x : DateTime) : (setDateTime f x).2 = true ↔ f.firstInvalid = 9 := by
  have := f.firstInvalid_le
  rw [setDateTime_ok, Fields.passed_iff_place_lt, Reg.place]
  omega

/-- The buffer with every field stored. -/
def Fields.buffer (f : Fields) : DateTime where
  hun := f.byteFor .hun
  sec := f.byteFor .sec
  min := f.byteFor .min
  hr := f.byteFor .hr
  day := f.byteFor .day
  mon := f.byteFor .mon
  yr := f.byteFor .yr
  wd := f.byteFor .wd

@[simp] theorem Fields.buffer_get (f : Fields) (r : Reg) : f.buffer.get r = f.byteFor r := by cases r <;> rfl

/-- SetDateTime with every field in domain (R91). -/
theorem setDateTime_of_inDomain {f : Fields} (h : ∀ r, f.inDomain r = true) (x : DateTime) :
    setDateTime f x = (f.buffer, true) := by
  refine Prod.ext (DateTime.ext_of_get fun r => ?_) ?_
  · rw [setDateTime_get, if_pos (Fields.passed_of_inDomain h r), Fields.buffer_get]
  · rw [setDateTime_ok, Fields.passed_of_inDomain h]

/-- With every field in domain `dec` gives each field's number back (R94, the source's property). -/
theorem dec_setDateTime_get {f : Fields} (h : ∀ r, f.inDomain r = true) (x : DateTime) (r : Reg) :
    (dec ((setDateTime f x).1.get r)).toNat = f.number r := by
  rw [setDateTime_of_inDomain h, Fields.buffer_get, Fields.dec_byteFor (h r)]

/-- YR after SetDateTime with a year in domain (R93). -/
theorem setDateTime_yr {f : Fields} (h : 2000 ≤ f.year) (x : DateTime) :
    (setDateTime f x).1.yr = bcd (f.year % 100).toNat := by
  have inDomain : f.inDomain .yr = true := (yearOk_iff _).2 h
  have passed : f.passed .yr = true := (Fields.passed_iff f .yr).2 fun r' hr' => by
    cases r' with
    | yr => exact inDomain
    | mon | day | wd | hr | min | sec | hun => exact absurd hr' (by decide)
  calc (setDateTime f x).1.yr
    _ = f.byteFor .yr := (setDateTime_get f x .yr).trans (if_pos passed)
    _ = bcd (f.year % 100).toNat := Fields.byteFor_eq_bcd inDomain

/-- SetDateTime with a year below 2000 writes nothing (R93). -/
theorem setDateTime_of_year_lt {f : Fields} (h : f.year < 2000) (x : DateTime) : setDateTime f x = (x, false) := by
  rw [setDateTime, if_pos (by rw [yearOk_iff]; omega)]

/-- Settles O11: the table's rows are the fields in order of validation, and its bytes the stored ones wherever the
check lets a byte be stored. -/
theorem setDateTimeChecksAndStoresInOrder : Obligations.SetDateTimeChecksAndStoresInOrder := by
  refine fun f x => ⟨?_, fun r => Fields.validByte_byteFor⟩
  rw [setDateTime_eq_storeInOrder, storeInOrder_map_congr fun r => Fields.byteFor_eq_bcd]
  simp only [Bool.decide_and]
  rfl

/-- Settles O14: the register YR of a year from 2000 on; an earlier year fails the first check. -/
theorem theYearIsTruncatedToTwoDigits : Obligations.TheYearIsTruncatedToTwoDigits := by
  refine ⟨fun f x h => ⟨(yearOk_iff _).2 h, setDateTime_yr h x, fun _ => by omega⟩,
    fun f x h => setDateTime_of_year_lt h x, fun f x => ⟨fun h => ?_, fun h => ?_, fun h => ?_⟩⟩
  all_goals
    rw [setDateTime_yr (by omega), h]
    decide

end Sys2Proof.Machine
end

section
/-! The buffer commands SETDT, LDDT and RDDT (41_buffer.md R94 to R96) in every state, and the steps that take their
words. -/

namespace Sys2Proof.Machine

/-- The step that takes the word of a command: the command's next state, presented. -/
theorem step_of_exec_next {cw : CmdWord} {i : Instr} {s t : State} (h : decode cw = .ok i)
    (hexec : exec i (idle s) = .next t) : step (presentNext cw s) = .next (presenting t) := by
  rw [step_presentNext, runWord_ok h, hexec, mapNext_next]

/-! ### LDDT and RDDT -/

/-- LDDT in every state (R95). -/
theorem exec_lddt_eq (r : Reg) (b : Byte) (s : State) :
    exec (.lddt r b) s = .next { s with x := s.x.set r b, rsp := 0x0000#16 } := by
  rw [exec_lddt, respond_byte]
  rfl

/-- RDDT in every state (R96). -/
theorem exec_rddt_eq (r : Reg) (s : State) : exec (.rddt r) s = .next { s with rsp := (s.x.get r).setWidth 16 } := by
  rw [exec_rddt, respond_byte]
  rfl

/-- A byte that is not valid for its register breaks the domain invariant (10_state.md R22). -/
theorem not_inDomain_set {r : Reg} {b : Byte} (h : Reg.validByte r b = false) (x : DateTime) :
    ¬ (x.set r b).InDomain := by
  intro inDomain
  have valid := inDomain r
  rw [DateTime.get_set, if_pos rfl, h] at valid
  exact Bool.false_ne_true valid

/-- Settles O19: LDDT is the register write, and a set must-be-zero bit of format IB does not decode. -/
theorem lddtStoresTheByteAsGiven : Obligations.LddtStoresTheByteAsGiven := by
  refine ⟨fun r b s => ⟨decode_lddt_word r b, s.x.set r b, exec_lddt_eq r b s, ?_, fun r' hr' => ?_,
    fun h => not_inDomain_set h s.x⟩, fun cw s hop hbit => ?_, by decide, by decide, by decide, fun s => ?_⟩
  · rw [DateTime.get_set, if_pos rfl]
  · rw [DateTime.get_set, if_neg hr']
  · refine answeredIllegal_of_decode (e := .reservedBitSet .lddt) ?_ s
    rw [decode_of_opcode_lddt hop, zeroField_and_of_ne hbit]
    rfl
  · exact step_of_exec_next (decode_lddt_word .sec 0x45#8) (exec_lddt_eq .sec 0x45#8 (idle s))

/-- Settles O20: RDDT is the register read, and a set must-be-zero bit of format I does not decode. -/
theorem rddtAnswersTheRawByte : Obligations.RddtAnswersTheRawByte := by
  refine ⟨fun r s => ⟨decode_rddt_word r, exec_rddt_eq r s⟩, fun cw s hop hbit => ?_, fun s hyr => ?_⟩
  · refine answeredIllegal_of_decode (e := .reservedBitSet .rddt) ?_ s
    rw [decode_of_opcode_rddt hop, zeroField_and_of_ne hbit]
    rfl
  · refine step_of_exec (decode_rddt_word .yr) s ?_
    rw [exec_rddt_eq, idle_x, DateTime.get, hyr]
    rfl

/-! ### SETDT -/

/-- SETDT in every state: SetDateTime of its operands, its result in the OK bit (R94). -/
theorem exec_setdt_eq (year : BitVec 16) (month day wd hour min sec hun : Byte) (s : State) :
    exec (.setdt year month day wd hour min sec hun) s = .next { s with
      x := (setDateTime (setdtFields year month day wd hour min sec hun) s.x).1
      rsp := if (setDateTime (setdtFields year month day wd hour min sec hun) s.x).2 then 0x4000#16 else 0x0000#16 } := by
  rw [exec_setdt, respond, rspWord_okBit]

/-- SETDT with every operand in domain: all eight registers new, OK = 1 (R94). -/
theorem exec_setdt_of_okBit {year : BitVec 16} {month day wd hour min sec hun : Byte}
    (h : okBit (.setdt year month day wd hour min sec hun) = true) (s : State) :
    exec (.setdt year month day wd hour min sec hun) s = .next { s with
      x := (setdtFields year month day wd hour min sec hun).buffer, rsp := 0x4000#16 } := by
  rw [exec_setdt_eq, setDateTime_of_inDomain ((validationOrder_all _).1 h)]
  rfl

/-- No word of SETDT is illegal: format D has no must-be-zero bit (R94, 30_encoding.md R64). -/
theorem not_illegalByRule_of_opcode_setdt {cw : CmdWord} (h : cw.extractLsb' 72 8 = 0x10#8) : ¬ IllegalByRule cw := by
  simp [IllegalByRule, h]

/-- The year operand is in domain from 2000 on (R90). -/
theorem setdtFields_inDomain_yr {year : BitVec 16} (h : 2000 ≤ year.toNat) (month day wd hour min sec hun : Byte) :
    (setdtFields year month day wd hour min sec hun).inDomain .yr = true :=
  (yearOk_iff _).2 (Int.ofNat_le.2 h)

/-- Operands of SETDT in the ranges of R90 are in domain. -/
theorem setdtFields_inDomain {year : BitVec 16} {month day wd hour min sec hun : Byte} (hyear : 2000 ≤ year.toNat)
    (hmonth : 1 ≤ month.toNat ∧ month.toNat ≤ 12) (hday : 1 ≤ day.toNat ∧ day.toNat ≤ 31) (hwd : wd.toNat ≤ 6)
    (hhour : hour.toNat ≤ 23) (hmin : min.toNat ≤ 59) (hsec : sec.toNat ≤ 59) (hhun : hun.toNat ≤ 99) (r : Reg) :
    (setdtFields year month day wd hour min sec hun).inDomain r = true := by
  cases r <;> simp [Fields.inDomain, setdtFields] <;> omega

/-- With operands in the source's ranges, years 2000 to 2099, SETDT succeeds and each register decodes to its operand
(R94). -/
theorem setdt_roundTrip {year : BitVec 16} {month day wd hour min sec hun : Byte} (x : DateTime)
    (hyear : 2000 ≤ year.toNat ∧ year.toNat ≤ 2099) (hmonth : 1 ≤ month.toNat ∧ month.toNat ≤ 12)
    (hday : 1 ≤ day.toNat ∧ day.toNat ≤ 31) (hwd : wd.toNat ≤ 6) (hhour : hour.toNat ≤ 23) (hmin : min.toNat ≤ 59)
    (hsec : sec.toNat ≤ 59) (hhun : hun.toNat ≤ 99) :
    let stored := setDateTime (setdtFields year month day wd hour min sec hun) x
    stored.2 = true ∧ (dec (stored.1.get .yr)).toNat = year.toNat - 2000 ∧ dec (stored.1.get .mon) = month ∧
    dec (stored.1.get .day) = day ∧ dec (stored.1.get .wd) = wd ∧ dec (stored.1.get .hr) = hour ∧
    dec (stored.1.get .min) = min ∧ dec (stored.1.get .sec) = sec ∧ dec (stored.1.get .hun) = hun := by
  intro stored
  have inDomain := setdtFields_inDomain hyear.1 hmonth hday hwd hhour hmin hsec hhun
  have dec_get := dec_setDateTime_get inDomain x
  refine ⟨congrArg Prod.snd (setDateTime_of_inDomain inDomain x), (dec_get .yr).trans ?_,
    BitVec.eq_of_toNat_eq (dec_get .mon), BitVec.eq_of_toNat_eq (dec_get .day), BitVec.eq_of_toNat_eq (dec_get .wd),
    BitVec.eq_of_toNat_eq (dec_get .hr), BitVec.eq_of_toNat_eq (dec_get .min), BitVec.eq_of_toNat_eq (dec_get .sec),
    BitVec.eq_of_toNat_eq (dec_get .hun)⟩
  simp only [Fields.number, setdtFields]
  omega

/-- Settles O15: SETDT is SetDateTime of its operands, whose effect the first field out of domain decides. -/
theorem setdtAsItsRuleSays : Obligations.SetdtAsItsRuleSays := by
  refine ⟨fun year month day wd hour min sec hun s => ⟨decode_setdt_word .., exec_setdt_eq .., setDateTime_ok_iff _ _,
    setDateTime_get_place _ _, fun hy hy' hm hm' hd hd' hwd hh hmi hs hhu =>
      setdt_roundTrip s.x ⟨hy, hy'⟩ ⟨hm, hm'⟩ ⟨hd, hd'⟩ hwd hh hmi hs hhu, ?_, ?_, ?_, ?_⟩,
    fun cw => not_illegalByRule_of_opcode_setdt, fun s => ⟨?_, ?_, ?_, ?_⟩⟩
  · rintro rfl
    exact Fields.firstInvalid_eq_one rfl
  · intro hyear hmonth
    refine Fields.firstInvalid_eq_two (setdtFields_inDomain_yr hyear month day wd hour min sec hun) ?_
    rcases hmonth with rfl | rfl <;> rfl
  · intro hyear hmonth hmonth' hday
    refine Fields.firstInvalid_eq_three (setdtFields_inDomain_yr hyear month day wd hour min sec hun) ?_ ?_
    · exact (monthOk_iff _).2 ⟨Int.ofNat_le.2 hmonth, Int.ofNat_le.2 hmonth'⟩
    · rcases hday with rfl | rfl <;> rfl
  · refine ⟨?_, ?_, ?_, ?_, ?_⟩ <;> rintro rfl <;> rfl
  · exact exec_setdt_of_okBit (by decide) s
  · exact exec_setdt_of_okBit (by decide) s
  · exact exec_setdt_of_okBit (by decide) s
  · exact step_of_exec_next (decode_setdt_word 2021#16 7#8 15#8 4#8 8#8 9#8 10#8 0#8)
      (exec_setdt_of_okBit (by decide) (idle s))

end Sys2Proof.Machine
end

section
/-! The words of formats AB and A (30_encoding.md R61): WRTXT and RDTXT decode to their operands. -/

namespace Sys2Proof

/-- The decoder on the opcode of WRTXT (R61, R63). -/
theorem decode_of_opcode_wrtxt {cw : CmdWord} (h : field 72 8 cw = 0x30#8) :
    decode cw = ifZero (zeroField 70 2 cw && zeroField 0 56 cw) (.wrtxt (field 64 6 cw) (field 56 8 cw)) := by
  rw [decode, h]
  rfl

/-- The decoder on the opcode of RDTXT (R61, R63). -/
theorem decode_of_opcode_rdtxt {cw : CmdWord} (h : field 72 8 cw = 0x31#8) :
    decode cw = ifZero (zeroField 70 2 cw && zeroField 0 64 cw) (.rdtxt (field 64 6 cw)) := by
  rw [decode, h]
  rfl

/-- The word of WRTXT decodes to it (42_text_access.md R110). -/
theorem decode_wrtxt_word (a : TxtAddr) (b : Byte) : decode (0x30#8 ++ 0#2 ++ a ++ b ++ 0#56) = .ok (.wrtxt a b) := by
  rw [decode_of_opcode_wrtxt (cw := 0x30#8 ++ 0#2 ++ a ++ b ++ 0#56) (Laws.EncodeOpcode.wrtxt a b)]
  simp (disch := decide) only [zeroField, field, extract_append_hi, extract_append_lo, Nat.reduceSub, extract_all]
  rfl

/-- The word of RDTXT decodes to it (42_text_access.md R111). -/
theorem decode_rdtxt_word (a : TxtAddr) : decode (0x31#8 ++ 0#2 ++ a ++ 0#64) = .ok (.rdtxt a) := by
  rw [decode_of_opcode_rdtxt (cw := 0x31#8 ++ 0#2 ++ a ++ 0#64) (Laws.EncodeOpcode.rdtxt a)]
  simp (disch := decide) only [zeroField, field, extract_append_hi, extract_append_lo, Nat.reduceSub, extract_all]
  rfl

end Sys2Proof
end

section
/-! The text bytes the parsers read (20_memory.md R45): a parse depends on no other byte of the text. -/

namespace Sys2Proof.Machine

/-- The twelve addresses PISO reads (20_memory.md R45). -/
def isoReads : List TxtAddr := [2, 3, 5, 6, 8, 9, 11, 12, 14, 15, 17, 18]

/-- The fifteen offsets from the prefix skip on that PHTTP reads (20_memory.md R45). -/
def httpReads : List TxtAddr := [0, 1, 5, 6, 8, 9, 10, 14, 15, 17, 18, 20, 21, 23, 24]

/-- Texts that agree where PISO reads give it the same fields and take as many draws. -/
theorem isoFields_congr {t u : TxtAddr → Byte} (h : ∀ a ∈ isoReads, u a = t a) (d : DrawStream) (n : Nat) :
    isoFields d n u = isoFields d n t := by
  simp only [isoReads, List.forall_mem_cons] at h
  simp only [isoFields, h]

/-- Texts that agree where PHTTP reads give it the same fields and take as many draws. -/
theorem httpFields_congr {t u : TxtAddr → Byte} (first : u 0 = t 0)
    (h : ∀ k ∈ httpReads, u (prefixSkip t + k) = t (prefixSkip t + k)) (d : DrawStream) (n : Nat) :
    httpFields d n u = httpFields d n t := by
  have skip : prefixSkip u = prefixSkip t := by rw [prefixSkip, first, prefixSkip]
  simp only [httpReads, List.forall_mem_cons, add_zero] at h
  simp only [httpFields, skip, h]

/-- PISO leaves the same registers and response where registers, draws and the text it reads are the same. -/
theorem exec_piso_congr {s t : State} (hx : t.x = s.x) (hdraws : t.draws = s.draws)
    (reads : ∀ a ∈ isoReads, readTxt t a = readTxt s a) :
    ∃ u v, exec .piso s = .next u ∧ exec .piso t = .next v ∧ v.x = u.x ∧ v.rsp = u.rsp := by
  refine ⟨_, _, exec_piso s, exec_piso t, ?_, by rw [respond_rsp, respond_rsp]⟩
  simp only [respond_x, storeParsed_x, hx, hdraws, isoFields_congr reads]

/-- PHTTP leaves the same registers and response where registers, draws and the text it reads are the same. -/
theorem exec_phttp_congr {s t : State} (hx : t.x = s.x) (hdraws : t.draws = s.draws) (first : readTxt t 0 = readTxt s 0)
    (reads : ∀ k ∈ httpReads, readTxt t (prefixSkip (readTxt s) + k) = readTxt s (prefixSkip (readTxt s) + k)) :
    ∃ u v, exec .phttp s = .next u ∧ exec .phttp t = .next v ∧ v.x = u.x ∧ v.rsp = u.rsp := by
  refine ⟨_, _, exec_phttp s, exec_phttp t, ?_, by rw [respond_rsp, respond_rsp]⟩
  simp only [respond_x, storeParsed_x, hx, hdraws, httpFields_congr first reads]

/-- The prefix skip is one of two (43_parsers.md R126). -/
theorem prefixSkip_mem (t : TxtAddr → Byte) : prefixSkip t ∈ ([6, 0] : List TxtAddr) := by
  rw [prefixSkip]
  split <;> decide

/-- The addresses no parser reads (42_text_access.md R110), as R45 gives them. -/
theorem unread_ne_reads {a : TxtAddr} (unread : a.toNat ∈ [4, 13, 19, 22, 25, 28] ∨ 31 ≤ a.toNat) :
    (∀ a' ∈ isoReads, a ≠ a') ∧ a ≠ 0 ∧ ∀ p ∈ ([6, 0] : List TxtAddr), ∀ k ∈ httpReads, a ≠ p + k := by
  revert a
  decide

end Sys2Proof.Machine
end

section
/-! The text memory commands WRTXT and RDTXT (42_text_access.md R110, R111) in every state, and the steps that take their
words. -/

namespace Sys2Proof.Machine

/-- The later of two writes to one address leaves its byte (R110). -/
theorem Memory.write_write {m : Memory} (h : Memory.wf m = true) (a : TxtAddr) (v v' : Byte) :
    Memory.write (Memory.write m a.toNat v) a.toNat v' = Memory.write m a.toNat v' := by
  have written := Memory.wf_write h a v
  refine Memory.ext_of_read (Memory.wf_write written a v') (Memory.wf_write h a v') fun k => ?_
  rw [Memory.read_write written, Memory.read_write h, Memory.read_write h]
  split <;> rfl

/-- WRTXT in every state (R110). -/
theorem exec_wrtxt_eq (a : TxtAddr) (b : Byte) (s : State) :
    exec (.wrtxt a b) s = .next { s with txt := Memory.write s.txt a.toNat b, rsp := 0x0000#16 } := by
  rw [exec_wrtxt, respond_byte]
  rfl

/-- RDTXT in every state (R111). -/
theorem exec_rdtxt_eq (a : TxtAddr) (s : State) :
    exec (.rdtxt a) s = .next { s with rsp := (Memory.read s.txt a.toNat).setWidth 16 } := by
  rw [exec_rdtxt, respond_byte]
  rfl

/-- A text write leaves every other address as it was (20_memory.md R43). -/
theorem readTxt_wrtxt_of_ne {s t : State} (h : Memory.wf s.txt = true) {a : TxtAddr} {b : Byte}
    (hexec : exec (.wrtxt a b) s = .next t) {a' : TxtAddr} (ne : a ≠ a') : readTxt t a' = readTxt s a' := by
  cases hexec
  exact (readTxt_writeTxt h a a' b).trans (if_neg ne)

/-- A write to an address no parser reads changes no parse (R110). -/
theorem parse_after_unread_wrtxt {s t : State} (h : Memory.wf s.txt = true) {a : TxtAddr} {b : Byte}
    (unread : a.toNat ∈ [4, 13, 19, 22, 25, 28] ∨ 31 ≤ a.toNat) (hexec : exec (.wrtxt a b) s = .next t) :
    ∀ i ∈ [Instr.piso, Instr.phttp],
      ∃ u v, exec i s = .next u ∧ exec i t = .next v ∧ v.x = u.x ∧ v.rsp = u.rsp := by
  obtain ⟨ne_iso, ne_first, ne_http⟩ := unread_ne_reads unread
  have hx : t.x = s.x := by cases hexec; rfl
  have hdraws : t.draws = s.draws := by cases hexec; rfl
  have same {a' : TxtAddr} (ne : a ≠ a') : readTxt t a' = readTxt s a' := readTxt_wrtxt_of_ne h hexec ne
  rw [List.forall_mem_cons, List.forall_mem_singleton]
  constructor
  · exact exec_piso_congr hx hdraws fun a' ha' => same (ne_iso a' ha')
  · exact exec_phttp_congr hx hdraws (same ne_first) fun k hk => same (ne_http _ (prefixSkip_mem _) k hk)

/-- Settles O21: WRTXT is the text write, and no parse reads the addresses left out of R45. -/
theorem wrtxtWritesOneByte : Obligations.WrtxtWritesOneByte := by
  refine ⟨fun a b s h => ⟨decode_wrtxt_word a b, _, exec_wrtxt_eq a b s, ?_, fun k hk => ?_, fun b' => ?_⟩,
    fun cw s hop hbit => ?_, fun s h => ⟨Memory.write s.txt 0 0x32#8, ?_, ?_⟩,
    fun a b s t h => parse_after_unread_wrtxt h⟩
  · rw [Memory.read_write h, if_pos rfl]
  · rw [Memory.read_write h, if_neg hk.symm]
  · rw [exec_wrtxt_eq, exec_wrtxt_eq, Memory.write_write h]
  · refine answeredIllegal_of_decode (e := .reservedBitSet .wrtxt) ?_ s
    rw [decode_of_opcode_wrtxt hop, zeroField_and_of_ne hbit]
    rfl
  · exact step_of_exec_next (decode_wrtxt_word 0#6 0x32#8) (exec_wrtxt_eq 0#6 0x32#8 (idle s))
  · exact (Memory.read_write h 0 0 0x32#8).trans (if_pos rfl)

/-- Settles O22: RDTXT is the text read, and a set must-be-zero bit of format A does not decode. -/
theorem rdtxtAnswersTheByte : Obligations.RdtxtAnswersTheByte := by
  refine ⟨fun a s => ⟨decode_rdtxt_word a, exec_rdtxt_eq a s⟩, fun cw s hop hbit => ?_, fun s hbyte => ?_⟩
  · refine answeredIllegal_of_decode (e := .reservedBitSet .rdtxt) ?_ s
    rw [decode_of_opcode_rdtxt hop, zeroField_and_of_ne hbit]
    rfl
  · refine step_of_exec (decode_rdtxt_word 0#6) s ?_
    rw [exec_rdtxt_eq, idle_txt, BitVec.toNat_zero, hbyte]
    rfl

end Sys2Proof.Machine
end

section
/-! Decoding by formats (30_encoding.md R61, R63, R64, R66): a word fits the format of one of the nine commands, or is
illegal. The decoder, the encoder, the rows of the opcode table and the rule of R64 are each tied to that once. -/

namespace Sys2Proof

/-- The must-be-zero fields of the command's format are zero (R61). -/
def Mnemonic.zeroBits : Mnemonic → CmdWord → Bool
  | .enc, cw => zeroField 0 64 cw
  | .dec, cw => zeroField 0 64 cw
  | .setdt, _ => true
  | .lddt, cw => zeroField 67 5 cw && zeroField 0 56 cw
  | .rddt, cw => zeroField 67 5 cw && zeroField 0 64 cw
  | .piso, cw => zeroField 0 72 cw
  | .phttp, cw => zeroField 0 72 cw
  | .wrtxt, cw => zeroField 70 2 cw && zeroField 0 56 cw
  | .rdtxt, cw => zeroField 70 2 cw && zeroField 0 64 cw

/-- The command with the operands that stand in its format's fields (R61). -/
def Mnemonic.read : Mnemonic → CmdWord → Instr
  | .enc, cw => .enc (field 64 8 cw)
  | .dec, cw => .dec (field 64 8 cw)
  | .setdt, cw => .setdt (field 56 16 cw) (field 48 8 cw) (field 40 8 cw) (field 32 8 cw) (field 24 8 cw)
      (field 16 8 cw) (field 8 8 cw) (field 0 8 cw)
  | .lddt, cw => .lddt (.ofIdx (field 64 3 cw)) (field 56 8 cw)
  | .rddt, cw => .rddt (.ofIdx (field 64 3 cw))
  | .piso, _ => .piso
  | .phttp, _ => .phttp
  | .wrtxt, cw => .wrtxt (field 64 6 cw) (field 56 8 cw)
  | .rdtxt, cw => .rdtxt (field 64 6 cw)

/-- The word has the command's opcode and zeros in its format's must-be-zero fields (R61, R63). -/
def Mnemonic.Fits (m : Mnemonic) (cw : CmdWord) : Prop := field 72 8 cw = m.opcode ∧ m.zeroBits cw = true

@[simp] theorem Mnemonic.read_mnemonic (m : Mnemonic) (cw : CmdWord) : (m.read cw).mnemonic = m := by cases m <;> rfl

/-- The nine opcodes are different (R63). -/
theorem Mnemonic.opcode_inj {m m' : Mnemonic} (h : m.opcode = m'.opcode) : m = m' := by
  cases m <;> cases m' <;> revert h <;> decide

/-- A word fits one format at most. -/
theorem Mnemonic.Fits.unique {m m' : Mnemonic} {cw : CmdWord} (h : m.Fits cw) (h' : m'.Fits cw) : m = m' :=
  Mnemonic.opcode_inj (h.1.symm.trans h'.1)

/-! ### The decoder and the encoder -/

/-- The decoder on any of the nine opcodes (R66). -/
theorem decode_of_opcode {m : Mnemonic} {cw : CmdWord} (h : field 72 8 cw = m.opcode) :
    decode cw = ifZero (m.zeroBits cw) (m.read cw) := by
  cases m with
  | enc => exact decode_of_opcode_enc h
  | dec => exact decode_of_opcode_dec h
  | setdt => exact decode_of_opcode_setdt h
  | lddt => exact decode_of_opcode_lddt h
  | rddt => exact decode_of_opcode_rddt h
  | wrtxt => exact decode_of_opcode_wrtxt h
  | rdtxt => exact decode_of_opcode_rdtxt h
  | piso | phttp =>
    rw [decode, h]
    rfl

theorem decode_of_fits {m : Mnemonic} {cw : CmdWord} (h : m.Fits cw) : decode cw = .ok (m.read cw) := by
  rw [decode_of_opcode h.1, h.2]
  rfl

theorem ifZero_eq_ok_iff {zero : Bool} {i j : Instr} : ifZero zero i = .ok j ↔ zero = true ∧ i = j := by
  cases zero <;> simp [ifZero]

/-- A word that decodes has one of the nine opcodes (R64 (a)). -/
theorem exists_opcode_of_decode {cw : CmdWord} {i : Instr} (h : decode cw = .ok i) :
    ∃ m : Mnemonic, field 72 8 cw = m.opcode := by
  rw [decode] at h
  split at h
  next op => exact ⟨.enc, BitVec.eq_of_toNat_eq op⟩
  next op => exact ⟨.dec, BitVec.eq_of_toNat_eq op⟩
  next op => exact ⟨.setdt, BitVec.eq_of_toNat_eq op⟩
  next op => exact ⟨.lddt, BitVec.eq_of_toNat_eq op⟩
  next op => exact ⟨.rddt, BitVec.eq_of_toNat_eq op⟩
  next op => exact ⟨.piso, BitVec.eq_of_toNat_eq op⟩
  next op => exact ⟨.phttp, BitVec.eq_of_toNat_eq op⟩
  next op => exact ⟨.wrtxt, BitVec.eq_of_toNat_eq op⟩
  next op => exact ⟨.rdtxt, BitVec.eq_of_toNat_eq op⟩
  next => cases h

/-- What decoding to a command means (R66): the word fits its format and shows its operands. -/
theorem decode_eq_ok_iff {cw : CmdWord} {i : Instr} :
    decode cw = .ok i ↔ i.mnemonic.Fits cw ∧ i.mnemonic.read cw = i := by
  constructor
  · intro h
    obtain ⟨m, op⟩ := exists_opcode_of_decode h
    obtain ⟨zeros, rfl⟩ := ifZero_eq_ok_iff.1 (decode_of_opcode op ▸ h)
    rw [Mnemonic.read_mnemonic]
    exact ⟨⟨op, zeros⟩, rfl⟩
  · rintro ⟨fits, read⟩
    rw [decode_of_fits fits, read]

/-- A word decodes exactly when it fits some format. -/
theorem exists_decode_iff_fits {cw : CmdWord} : (∃ i, decode cw = .ok i) ↔ ∃ m : Mnemonic, m.Fits cw :=
  ⟨fun ⟨i, h⟩ => ⟨i.mnemonic, (decode_eq_ok_iff.1 h).1⟩, fun ⟨m, h⟩ => ⟨m.read cw, decode_of_fits h⟩⟩

/-- The word of PISO decodes to it (43_parsers.md R124). -/
theorem decode_piso_word : decode (0x20#8 ++ 0#72) = .ok .piso :=
  decode_of_fits (m := .piso) ⟨Laws.EncodeOpcode.piso, by decide⟩

/-- The word of PHTTP decodes to it (43_parsers.md R125). -/
theorem decode_phttp_word : decode (0x21#8 ++ 0#72) = .ok .phttp :=
  decode_of_fits (m := .phttp) ⟨Laws.EncodeOpcode.phttp, by decide⟩

/-- Settles O2: the decoder finds the opcode and reads each operand back from its field. -/
theorem decodeUndoesEncode : Obligations.DecodeUndoesEncode := by
  intro i
  cases i with
  | enc b => exact decode_enc_word b
  | dec b => exact decode_dec_word b
  | setdt => exact decode_setdt_word ..
  | lddt r b => exact decode_lddt_word r b
  | rddt r => exact decode_rddt_word r
  | piso => exact decode_piso_word
  | phttp => exact decode_phttp_word
  | wrtxt a b => exact decode_wrtxt_word a b
  | rdtxt a => exact decode_rdtxt_word a

/-- Settles O1: each word is the encoding of its command, operand by operand. -/
theorem specWordsDecode : Obligations.SpecWordsDecode :=
  ⟨decode_enc_word 45#8, decode_dec_word 0x45#8, decode_setdt_word 2021#16 7#8 15#8 4#8 8#8 9#8 10#8 0#8,
    decode_lddt_word .sec 0x45#8, decode_rddt_word .yr, decode_piso_word, decode_phttp_word,
    decode_wrtxt_word 63#6 0xFF#8, decode_rdtxt_word 63#6⟩

/-- Neighbouring fields are one field (R61). -/
theorem field_append {start start' w w' : Nat} (cw : CmdWord) (h : start' = start + w) :
    field start' w' cw ++ field start w cw = field start (w' + w) cw :=
  BitVec.extractLsb'_append_extractLsb'_eq_extractLsb' h

theorem zeroField_iff {start w : Nat} {cw : CmdWord} : zeroField start w cw = true ↔ field start w cw = 0#w :=
  decide_eq_true_iff

/-- A word that fits a format is its opcode, its operands and its zeros, side by side (R61). -/
theorem encode_read {m : Mnemonic} {cw : CmdWord} (h : m.Fits cw) : encode (m.read cw) = cw := by
  obtain ⟨op, zeros⟩ := h
  cases m <;>
    simp only [Mnemonic.zeroBits, Bool.and_eq_true, zeroField_iff, Mnemonic.opcode, BitVec.ofNat_eq_ofNat,
      eq_comm (a := field _ _ _)] at op zeros <;>
    simp (disch := decide) only [Mnemonic.read, encode, Reg.idx_ofIdx, zeros, op, field_append] <;>
    exact extract_all cw

/-- Settles O3: a word that decodes fits a format, whose fields make up the whole word. -/
theorem encodeUndoesDecode : Obligations.EncodeUndoesDecode := by
  intro cw i h
  obtain ⟨fits, read⟩ := decode_eq_ok_iff.1 h
  rw [← read, encode_read fits]

end Sys2Proof
end

section
/-! The other two readings of decoding (30_encoding.md R64, R66): the rows of opcode_table.json select by mask what the
formats say by fields, and the rule of R64 names the words that fit no format. -/

namespace Sys2Proof

/-! ### The opcode table -/

theorem append_eq_append_iff {m n : Nat} {x x' : BitVec m} {y y' : BitVec n} : x ++ y = x' ++ y' ↔ x = x' ∧ y = y' := by
  constructor
  · intro h
    have lo := congrArg (BitVec.extractLsb' 0 n) h
    have hi := congrArg (BitVec.extractLsb' n m) h
    rw [extract_append_lo _ _ (by omega), extract_append_lo _ _ (by omega), extract_all, extract_all] at lo
    rw [extract_append_hi _ _ le_rfl, extract_append_hi _ _ le_rfl, Nat.sub_self, extract_all, extract_all] at hi
    exact ⟨hi, lo⟩
  · rintro ⟨rfl, rfl⟩
    rfl

/-- A slice of a slice. -/
theorem extract_extract {w s m s' m' : Nat} (x : BitVec w) (h : s' + m' ≤ m) :
    (x.extractLsb' s m).extractLsb' s' m' = x.extractLsb' (s + s') m' := by
  ext i hi
  simp [show s' + i < m by omega, Nat.add_assoc]

/-- A mask and a match in two parts, each for its part of the word. -/
theorem and_append_eq_iff {m n : Nat} (x : BitVec (m + n)) (a b : BitVec m) (c d : BitVec n) :
    x &&& (a ++ c) = b ++ d ↔ x.extractLsb' n m &&& a = b ∧ x.extractLsb' 0 n &&& c = d := by
  have cut : x.extractLsb' n m ++ x.extractLsb' 0 n = x :=
    (BitVec.extractLsb'_append_extractLsb'_eq_extractLsb' (Nat.zero_add n).symm).trans (extract_all x)
  conv_lhs => rw [← cut, BitVec.and_append]
  exact append_eq_append_iff

/-- The form every row of opcode_table.json has: the mask lets through the opcode, `z1` bits below it and the lowest
`z0` bits, and the match is the opcode with zeros below. -/
theorem and_mask_eq_iff (z1 k z0 : Nat) (cw : BitVec (8 + z1 + k + z0)) (op : Byte) :
    cw &&& (BitVec.allOnes 8 ++ BitVec.allOnes z1 ++ 0#k ++ BitVec.allOnes z0) = op ++ 0#z1 ++ 0#k ++ 0#z0 ↔
      cw.extractLsb' (z0 + k + z1) 8 = op ∧ cw.extractLsb' (z0 + k) z1 = 0#z1 ∧ cw.extractLsb' 0 z0 = 0#z0 := by
  rw [and_append_eq_iff, and_append_eq_iff, and_append_eq_iff]
  simp (disch := omega) only [BitVec.and_allOnes, BitVec.and_zero, and_true, and_assoc, extract_extract, Nat.add_zero,
    Nat.add_assoc]

/-- A row selects the words that fit its command's format (R66). -/
theorem selects_iff_fits (cw : CmdWord) : ∀ row ∈ opRows, row.selects cw = true ↔ row.mnemonic.Fits cw := by
  simp only [opRows, List.forall_mem_cons, OpRow.selects, Mnemonic.Fits, Mnemonic.opcode, Mnemonic.zeroBits,
    Bool.and_eq_true, decide_eq_true_iff, zeroField_iff, List.not_mem_nil, false_imp_iff, implies_true, and_true]
  refine ⟨(and_mask_eq_iff 0 8 64 cw 0x01#8).trans ?_, (and_mask_eq_iff 0 8 64 cw 0x02#8).trans ?_,
    (and_mask_eq_iff 0 72 0 cw 0x10#8).trans ?_, and_mask_eq_iff 5 11 56 cw 0x11#8, and_mask_eq_iff 5 3 64 cw 0x12#8,
    (and_mask_eq_iff 0 0 72 cw 0x20#8).trans ?_, (and_mask_eq_iff 0 0 72 cw 0x21#8).trans ?_,
    and_mask_eq_iff 2 14 56 cw 0x30#8, and_mask_eq_iff 2 6 64 cw 0x31#8⟩ <;>
    simp [field]

/-- Every command has one row (R63). -/
theorem exists_row (m : Mnemonic) : ∃ row ∈ opRows, row.mnemonic = m := by cases m <;> decide

theorem row_unique : ∀ r ∈ opRows, ∀ r' ∈ opRows, r.mnemonic = r'.mnemonic → r = r' := by decide

theorem legalWord_iff_fits (cw : CmdWord) : legalWord cw = true ↔ ∃ m : Mnemonic, m.Fits cw := by
  rw [legalWord, List.any_eq_true]
  constructor
  · rintro ⟨row, mem, selects⟩
    exact ⟨row.mnemonic, (selects_iff_fits cw row mem).1 selects⟩
  · rintro ⟨m, fits⟩
    obtain ⟨row, mem, rfl⟩ := exists_row m
    exact ⟨row, mem, (selects_iff_fits cw row mem).2 fits⟩

/-- Settles O4: a row selects the words of its command's format, and no word fits two formats. -/
theorem decodeAgreesWithOpcodeTable : Obligations.DecodeAgreesWithOpcodeTable := by
  intro cw
  refine ⟨(legalWord_iff_fits cw).trans exists_decode_iff_fits.symm, fun i h row mem selects => ?_,
    fun r mem r' mem' selects selects' => ?_⟩
  · exact ((selects_iff_fits cw row mem).1 selects).unique (decode_eq_ok_iff.1 h).1
  · exact row_unique r mem r' mem'
      (((selects_iff_fits cw r mem).1 selects).unique ((selects_iff_fits cw r' mem').1 selects'))

end Sys2Proof

namespace Sys2Proof.Machine

/-! ### Illegal words -/

/-- The nine commands in the order of R63. -/
def mnemonics : List Mnemonic := [.enc, .dec, .setdt, .lddt, .rddt, .piso, .phttp, .wrtxt, .rdtxt]

/-- R64 (a): an opcode that is none of the nine. -/
theorem illegalByRule_of_unknown {cw : CmdWord} (h : ∀ m : Mnemonic, field 72 8 cw ≠ m.opcode) : IllegalByRule cw := by
  refine Or.inl fun mem => ?_
  rw [show [0x01, 0x02, 0x10, 0x11, 0x12, 0x20, 0x21, 0x30, 0x31] = mnemonics.map (·.opcode.toNat) from rfl] at mem
  obtain ⟨m, -, op⟩ := List.mem_map.1 mem
  exact h m (BitVec.eq_of_toNat_eq op.symm)

/-- R64 (b): with the opcode of a command a word is illegal exactly when a must-be-zero bit of the format is set. -/
theorem illegalByRule_of_opcode {m : Mnemonic} {cw : CmdWord} (h : field 72 8 cw = m.opcode) :
    IllegalByRule cw ↔ m.zeroBits cw = false := by
  rw [← Bool.not_eq_true]
  rw [field] at h
  cases m <;> simp [IllegalByRule, h, Mnemonic.opcode, Mnemonic.zeroBits, zeroField_iff, field, imp_iff_not_or]

/-- The words that are illegal by the rule of R64 are those that do not decode. -/
theorem illegalByRule_iff (cw : CmdWord) : IllegalByRule cw ↔ ∀ i, decode cw ≠ .ok i := by
  by_cases op : ∃ m : Mnemonic, field 72 8 cw = m.opcode
  · obtain ⟨m, op⟩ := op
    rw [illegalByRule_of_opcode op, decode_of_opcode op]
    cases m.zeroBits cw <;> simp [ifZero]
  · exact iff_of_true (illegalByRule_of_unknown (not_exists.1 op)) fun i h => op (exists_opcode_of_decode h)

theorem not_illegalByRule_of_decode {cw : CmdWord} {i : Instr} (h : decode cw = .ok i) : ¬ IllegalByRule cw :=
  fun illegal => (illegalByRule_iff cw).1 illegal i h

theorem answeredIllegal_of_illegalByRule {cw : CmdWord} (h : IllegalByRule cw) (s : State) : AnsweredIllegal cw s := by
  cases hd : decode cw with
  | ok i => exact absurd hd ((illegalByRule_iff cw).1 h i)
  | error e => exact answeredIllegal_of_decode hd s

/-- SETDT with an operand out of domain responds with OK = 0 (41_buffer.md R94). -/
theorem okBit_setdt_of_bad {year : BitVec 16} {month day wd hour min sec hun : Byte}
    (h : ∃ r, (setdtFields year month day wd hour min sec hun).inDomain r = false) :
    okBit (.setdt year month day wd hour min sec hun) = false := by
  obtain ⟨r, bad⟩ := h
  rw [okBit, Bool.eq_false_iff, Ne, validationOrder_all]
  exact fun all => absurd (all r) (by simp [bad])

/-- Settles O5: the words that do not decode are answered by `raise Illegal`, the others run their command. -/
theorem illegalWordsAreAnsweredAndChangeNothing : Obligations.IllegalWordsAreAnsweredAndChangeNothing := by
  refine ⟨fun cw s => (answeredIllegal_of_illegalByRule · s), fun cw s legal => ?_,
    illegalByRule_of_unknown fun m => ?_, illegalByRule_of_unknown fun m => ?_, fun cw s op => ?_,
    fun b r a => ⟨not_illegalByRule_of_decode (decode_enc_word b), not_illegalByRule_of_decode (decode_dec_word b),
      not_illegalByRule_of_decode (decode_lddt_word r b), not_illegalByRule_of_decode (decode_wrtxt_word a b)⟩⟩
  · rw [illegalByRule_iff, not_forall] at legal
    obtain ⟨i, h⟩ := legal
    exact ⟨i, not_not.1 h, by rw [step_presentNext, runWord_ok (not_not.1 h)]⟩
  · cases m <;> decide
  · cases m <;> decide
  · have h := decode_of_opcode_setdt op
    obtain ⟨t, step, rsp⟩ := step_legal h s
    refine ⟨not_illegalByRule_of_opcode_setdt op, _, _, _, _, _, _, _, _, t, h, step, fun bad => ?_⟩
    rw [rsp, okBit_setdt_of_bad bad]
    exact rspWord_okBit false

end Sys2Proof.Machine
end

section
/-! The laws of the codec (40_codec.md R84) and of SetDateTime (41_buffer.md R92, R94), and what of them SETDT shows. -/

namespace Sys2Proof.Machine

/-- Settles O8: the digits of a number up to 99 and the nibbles of a valid BCD byte are the same two numbers. -/
theorem codecRoundTripLaws : Obligations.CodecRoundTripLaws := by
  refine ⟨fun d h => ?_, fun b h => ?_, fun d e lt le => ?_⟩
  · rw [dec_toNat (isBcd_enc h), digits_enc h]
  · rw [dec_toNat h, enc_digits h]
  · rw [enc_toNat (by omega), enc_toNat le]
    omega

/-- Settles O12: R92's `k` decides the result and every register. -/
theorem setDateTimePartialMutation : Obligations.SetDateTimePartialMutation :=
  fun f x => ⟨setDateTime_ok_iff f x, setDateTime_get_place f x⟩

/-! ### The first field out of domain decides -/

theorem Reg.place_le (r : Reg) : Reg.place r ≤ 8 := by cases r <;> decide

/-- Where R92's `k` is not 9 a field stands at it, and it is out of domain. -/
theorem Fields.exists_firstInvalid {f : Fields} (h : f.firstInvalid ≠ 9) :
    ∃ r, Reg.place r = f.firstInvalid ∧ f.inDomain r = false := by
  have lt : validationOrder.findIdx (fun r => !f.inDomain r) < validationOrder.length :=
    lt_of_le_of_ne List.findIdx_le_length fun eq => h (congrArg (· + 1) eq)
  have place_get : ∀ (j : Nat) (hj : j < validationOrder.length), Reg.place validationOrder[j] = j + 1 := by decide
  exact ⟨_, place_get _ lt, by simpa using List.findIdx_getElem (w := lt)⟩

/-- With `k = 9` every field is in domain. -/
theorem Fields.inDomain_of_firstInvalid {f : Fields} (h : f.firstInvalid = 9) (r : Reg) : f.inDomain r = true := by
  refine (f.passed_iff r).1 ((f.passed_iff_place_lt r).2 ?_) r le_rfl
  have := Reg.place_le r
  omega

/-- Fields before `k` are in domain. -/
theorem Fields.inDomain_of_place_lt {f : Fields} {r : Reg} (h : Reg.place r < f.firstInvalid) : f.inDomain r = true :=
  (f.passed_iff r).1 ((f.passed_iff_place_lt r).2 h) r le_rfl

/-- Fields whose domain checks agree up to `k` have the same `k`. -/
theorem Fields.firstInvalid_congr {f g : Fields}
    (h : ∀ r, Reg.place r ≤ f.firstInvalid → f.inDomain r = g.inDomain r) : g.firstInvalid = f.firstInvalid := by
  by_cases all : f.firstInvalid = 9
  · have last_passed : g.passed .hun = true := Fields.passed_of_inDomain (fun r => by
      rw [← h r (by have := Reg.place_le r; omega), Fields.inDomain_of_firstInvalid all r]) _
    have past_last : 8 < g.firstInvalid := (g.passed_iff_place_lt .hun).1 last_passed
    have := g.firstInvalid_le
    omega
  · obtain ⟨r, place, bad⟩ := Fields.exists_firstInvalid all
    rw [← place]
    refine Fields.firstInvalid_eq_place (by rw [← h r place.le, bad]) fun r' before => ?_
    rw [place] at before
    rw [← h r' before.le, Fields.inDomain_of_place_lt before]

/-- Settles O13: equal checks up to `k` give the same `k`, and only the bytes before it are stored. -/
theorem fieldsAfterTheFirstInvalidPlayNoPart : Obligations.FieldsAfterTheFirstInvalidPlayNoPart := by
  intro f g x agree
  have same : g.firstInvalid = f.firstInvalid := Fields.firstInvalid_congr fun r hr => (agree r hr).1
  refine Prod.ext (DateTime.ext_of_get fun r => ?_) (Bool.eq_iff_iff.2 ?_)
  · rw [setDateTime_get_place, setDateTime_get_place, same]
    split
    next before => exact (agree r before.le).2
    next => rfl
  · rw [setDateTime_ok_iff, setDateTime_ok_iff, same]

/-! ### SETDT -/

/-- The buffer with every field stored, as the table of R90 writes it. -/
theorem Fields.buffer_eq_bcd {f : Fields} (h : ∀ r, f.inDomain r = true) : f.buffer =
    { hun := bcd f.hun.toNat, sec := bcd f.sec.toNat, min := bcd f.min.toNat, hr := bcd f.hour.toNat,
      day := bcd f.day.toNat, mon := bcd f.month.toNat, yr := bcd (f.year % 100).toNat, wd := bcd f.wd.toNat } := by
  simp only [Fields.buffer, Fields.byteFor_eq_bcd (h _), Fields.number]

/-- Settles O16: with every operand in domain SETDT stores them all. -/
theorem setdtStoresAValidDate : Obligations.SetdtStoresAValidDate := by
  intro year month day wd hour min sec hun s hy hm hm' hd hd' hwd hh hmi hs hhu
  have inDomain := setdtFields_inDomain hy ⟨hm, hm'⟩ ⟨hd, hd'⟩ hwd hh hmi hs hhu
  rw [exec_setdt_of_okBit ((validationOrder_all _).2 inDomain), Fields.buffer_eq_bcd inDomain]
  rfl

/-- Settles O17: each stored byte decodes to its operand. -/
theorem setdtFieldsRoundTrip : Obligations.SetdtFieldsRoundTrip := by
  intro year month day wd hour min sec hun s hy hy' hm hm' hd hd' hwd hh hmi hs hhu
  obtain ⟨ok, registers⟩ := setdt_roundTrip s.x ⟨hy, hy'⟩ ⟨hm, hm'⟩ ⟨hd, hd'⟩ hwd hh hmi hs hhu
  exact ⟨_, exec_setdt_eq .., if_pos ok, registers⟩

/-- Settles O18: SetDateTime stops at the first operand out of domain and SETDT answers OK = 0. -/
theorem setdtFailsAtTheFirstInvalidField : Obligations.SetdtFailsAtTheFirstInvalidField := by
  intro year month day wd hour min sec hun s bad
  refine ⟨_, ?_, setDateTime_get_place _ s.x⟩
  rw [exec_setdt_eq, if_neg (mt (setDateTime_ok_iff _ _).1 bad)]

/-! ### A write and a read through the channel -/

/-- The responses to a list of words, from the first one's step. -/
theorem respondAll_cons {cw : CmdWord} {s t : State} (first : step (presentNext cw s) = .next t) (rest : List CmdWord) :
    respondAll (cw :: rest) s = (respondAll rest t).map fun r => (t.rsp :: r.1, r.2) := by
  rw [respondAll, first]

/-- The responses to two words, from the two steps. -/
theorem respondAll_two {cw cw' : CmdWord} {s t u : State} (first : step (presentNext cw s) = .next t)
    (second : step (presentNext cw' t) = .next u) : respondAll [cw, cw'] s = some ([t.rsp, u.rsp], u) := by
  rw [respondAll_cons first, respondAll_cons second]
  rfl

/-- Settles O23: the second command reads what the first one's write left. -/
theorem readAfterWriteThroughTheChannel : Obligations.ReadAfterWriteThroughTheChannel := by
  refine ⟨fun a a' b s h => ?_, fun r r' b s => ?_⟩
  · refine ⟨_, _, respondAll_two (step_of_exec_next (decode_wrtxt_word a b) (exec_wrtxt_eq a b _))
      (step_of_exec_next (decode_rdtxt_word a') (exec_rdtxt_eq a' _)), ?_⟩
    simp only [presenting_rsp, presenting_txt, idle_txt, readTxt]
    rw [Memory.read_write h]
    simp only [BitVec.toNat_inj, eq_comm (a := a)]
  · refine ⟨_, _, respondAll_two (step_of_exec_next (decode_lddt_word r b) (exec_lddt_eq r b _))
      (step_of_exec_next (decode_rddt_word r') (exec_rddt_eq r' _)), ?_⟩
    simp only [presenting_rsp, presenting_x, idle_x, DateTime.get_set, readReg]

end Sys2Proof.Machine
end

section
/-! What any command, any step and any clock edge can do, said once (10_state.md R23, R28, R30; 30_encoding.md R72), and
the invariants that follow. -/

namespace Sys2Proof.Machine

/-! ### Commands -/

/-- Settles O43: the meanings touch registers, text, response register and draws only. -/
theorem commandsLeaveTheChannelAlone : Obligations.CommandsLeaveTheChannelAlone := by
  intro i s
  cases i with
  | enc b => exact ⟨_, exec_enc b s, rfl, rfl, rfl⟩
  | dec b => exact ⟨_, exec_dec b s, rfl, rfl, rfl⟩
  | setdt => exact ⟨_, exec_setdt .., rfl, rfl, rfl⟩
  | lddt r b => exact ⟨_, exec_lddt r b s, rfl, rfl, rfl⟩
  | rddt r => exact ⟨_, exec_rddt r s, rfl, rfl, rfl⟩
  | piso => exact ⟨_, exec_piso s, rfl, rfl, rfl⟩
  | phttp => exact ⟨_, exec_phttp s, rfl, rfl, rfl⟩
  | wrtxt a b => exact ⟨_, exec_wrtxt a b s, rfl, rfl, rfl⟩
  | rdtxt a => exact ⟨_, exec_rdtxt a s, rfl, rfl, rfl⟩

/-- The text after a command: as before, or WRTXT's write (R28). -/
theorem exec_txt {i : Instr} {s t : State} (h : exec i s = .next t) :
    t.txt = s.txt ∨ ∃ a b, i = .wrtxt a b ∧ t.txt = Memory.write s.txt a.toNat b := by
  cases i with
  | wrtxt a b => cases h; exact .inr ⟨a, b, rfl, rfl⟩
  | enc | dec | setdt | lddt | rddt | piso | phttp | rdtxt => cases h; exact .inl rfl

/-- The registers after a command: as before, SetDateTime's, or LDDT's write (R23). -/
theorem exec_x {i : Instr} {s t : State} (h : exec i s = .next t) :
    t.x = s.x ∨
    (i.mnemonic = .setdt ∨ i.mnemonic = .piso ∨ i.mnemonic = .phttp) ∧ (∃ f, t.x = (setDateTime f s.x).1) ∨
    ∃ r b, i = .lddt r b ∧ t.x = s.x.set r b := by
  cases i with
  | setdt => cases h; exact .inr (.inl ⟨.inl rfl, _, rfl⟩)
  | piso => cases h; exact .inr (.inl ⟨.inr (.inl rfl), _, rfl⟩)
  | phttp => cases h; exact .inr (.inl ⟨.inr (.inr rfl), _, rfl⟩)
  | lddt r b => cases h; exact .inr (.inr ⟨r, b, rfl, rfl⟩)
  | enc | dec | rddt | wrtxt | rdtxt => cases h; exact .inl rfl

/-- A command keeps the text memory in canonical form (20_memory.md R40). -/
theorem exec_wf {i : Instr} {s t : State} (h : exec i s = .next t) (wf : Memory.wf s.txt = true) :
    Memory.wf t.txt = true := by
  obtain same | ⟨a, b, -, written⟩ := exec_txt h
  · rwa [same]
  · rw [written]
    exact Memory.wf_write wf a b

/-- Settles O42: the text after a command is WRTXT's write or as before. -/
theorem onlyWrtxtChangesTheText : Obligations.OnlyWrtxtChangesTheText := by
  intro i s t wf h k changed
  obtain same | ⟨a, b, rfl, written⟩ := exec_txt h
  · exact absurd (by rw [same]) changed
  · rw [written, Memory.read_write wf] at changed
    refine ⟨a, b, rfl, ?_⟩
    by_contra ne
    exact changed (if_neg (Ne.symm ne))

/-- Settles O41: the registers after a command are SetDateTime's, LDDT's or as before, and RDDT's response is the only
result that reads them. -/
theorem whoTouchesTheRegisters : Obligations.WhoTouchesTheRegisters := by
  refine ⟨fun i s t r h changed => ?_, fun i s x' notRddt => ?_⟩
  · obtain same | ⟨stores, -⟩ | ⟨r', b, rfl, written⟩ := exec_x h
    · exact absurd (by rw [same]) changed
    · obtain setdt | piso | phttp := stores
      · exact .inl setdt
      · exact .inr (.inl piso)
      · exact .inr (.inr (.inl phttp))
    · rw [written, DateTime.get_set] at changed
      have : r = r' := by
        by_contra ne
        exact changed (if_neg ne)
      exact .inr (.inr (.inr ⟨b, by rw [this]⟩))
  · cases i with
    | enc b => exact ⟨_, _, exec_enc b s, exec_enc b _, rfl, rfl, rfl⟩
    | dec b => exact ⟨_, _, exec_dec b s, exec_dec b _, rfl, rfl, rfl⟩
    | setdt =>
      refine ⟨_, _, exec_setdt .., exec_setdt .., ?_, rfl, rfl⟩
      rw [respond_rsp, respond_rsp, setDateTime_okBit, setDateTime_okBit]
    | lddt r b => exact ⟨_, _, exec_lddt r b s, exec_lddt r b _, rfl, rfl, rfl⟩
    | rddt => exact absurd rfl notRddt
    | piso => exact ⟨_, _, exec_piso s, exec_piso _, rfl, rfl, rfl⟩
    | phttp => exact ⟨_, _, exec_phttp s, exec_phttp _, rfl, rfl, rfl⟩
    | wrtxt a b => exact ⟨_, _, exec_wrtxt a b s, exec_wrtxt a b _, rfl, rfl, rfl⟩
    | rdtxt a => exact ⟨_, _, exec_rdtxt a s, exec_rdtxt a _, rfl, rfl, rfl⟩

/-! ### The domain invariant of the buffer (10_state.md R22) -/

/-- SetDateTime keeps every register in domain: what it stores is valid, what it does not store stays. -/
theorem setDateTime_keeps_inDomain (f : Fields) {x : DateTime} (h : x.InDomain) : (setDateTime f x).1.InDomain := by
  intro r
  rw [setDateTime_get_place]
  split
  next before => exact Fields.validByte_byteFor (Fields.inDomain_of_place_lt before)
  next => exact h r

/-- SetDateTime that returns true puts every register in domain. -/
theorem inDomain_of_setDateTime_ok {f : Fields} {x : DateTime} (h : (setDateTime f x).2 = true) :
    (setDateTime f x).1.InDomain := by
  have all := Fields.inDomain_of_firstInvalid ((setDateTime_ok_iff f x).1 h)
  intro r
  rw [setDateTime_of_inDomain all, Fields.buffer_get]
  exact Fields.validByte_byteFor (all r)

/-- Settles O51: all but LDDT write registers through SetDateTime, which stores valid bytes only; OK = 1 means it stored
all eight. -/
theorem onlyLddtBreaksTheDomainInvariant : Obligations.OnlyLddtBreaksTheDomainInvariant := by
  refine ⟨fun i s t inDomain notLddt h => ?_, fun i s t setdt h ok => ?_⟩
  · obtain same | ⟨-, f, stored⟩ | ⟨r, b, rfl, -⟩ := exec_x h
    · rwa [same]
    · rw [stored]
      exact setDateTime_keeps_inDomain f inDomain
    · exact absurd rfl notLddt
  · cases i with
    | setdt =>
      rw [exec_setdt_eq] at h
      cases h
      refine inDomain_of_setDateTime_ok ?_
      by_contra failed
      rw [if_neg failed] at ok
      exact absurd (show 0x0000#16 = 0x4000#16 from ok) (by decide)
    | enc | dec | lddt | rddt | piso | phttp | wrtxt | rdtxt => cases setdt

/-! ### Steps and clock edges -/

/-- Every word runs, legal or not (30_encoding.md R64). -/
theorem runWord_next (cw : CmdWord) (s : State) : ∃ t, runWord cw s = .next t := by
  cases h : decode cw with
  | error e => exact ⟨_, runWord_illegal h s⟩
  | ok i => exact (exec_responds i s).imp' _ fun _ exec => (runWord_ok h s).trans exec

/-- A word keeps the text memory in canonical form (20_memory.md R40). -/
theorem runWord_wf {cw : CmdWord} {s t : State} (h : runWord cw s = .next t) (wf : Memory.wf s.txt = true) :
    Memory.wf t.txt = true := by
  cases decoded : decode cw with
  | error e =>
    rw [runWord_illegal decoded] at h
    cases h
    exact wf
  | ok i =>
    rw [runWord_ok decoded] at h
    exact exec_wf h wf

/-- What a clock edge does (R72, R170): reset, the answer, nothing, the end of a response, or the acceptance of a
word. -/
theorem edge_cases (pins : PinsIn) (done : Bool) (s : State) : ∃ t, edge pins done s = .next t ∧
    (t = takeReset Config.draw s ∨ t = presenting s ∨ t = s ∨ t = idle s ∨
      ∃ u, runWord pins.cmd s = .next u ∧ t = inFlight u) := by
  rw [edge]
  split
  · exact ⟨_, rfl, .inl rfl⟩
  split
  · cases done
    · exact ⟨_, rfl, .inr (.inr (.inl rfl))⟩
    · exact ⟨_, rfl, .inr (.inl rfl)⟩
  split
  · exact ⟨_, rfl, .inr (.inr (.inr (.inl rfl)))⟩
  split
  · obtain ⟨u, run⟩ := runWord_next pins.cmd s
    exact ⟨inFlight u, by rw [run, mapNext_next], .inr (.inr (.inr (.inr ⟨u, run, rfl⟩)))⟩
  · exact ⟨_, rfl, .inr (.inr (.inl rfl))⟩

/-- What a step does (00_scope.md R6): a reset, one word run and answered, or an idle edge. -/
theorem step_cases (s : State) : ∃ t, step s = .next t ∧
    ((∃ rest, t = takeReset Config.draw { s with inputs := rest }) ∨
      (∃ cw rest u, runWord cw (idle { s with inputs := rest }) = .next u ∧ t = presenting u) ∨
      edge quietPins true s = .next t) := by
  cases h : s.inputs with
  | nil =>
    obtain ⟨t, edge, -⟩ := edge_cases quietPins true s
    exact ⟨t, (step_nil h).trans edge, .inr (.inr edge)⟩
  | cons input rest =>
    cases input with
    | rst => exact ⟨_, step_rst h, .inl ⟨rest, rfl⟩⟩
    | cmd cw =>
      obtain ⟨u, run⟩ := runWord_next cw (idle { s with inputs := rest })
      exact ⟨presenting u, by rw [step_cmd h, run, mapNext_next], .inr (.inl ⟨cw, rest, u, run, rfl⟩)⟩

/-- Settles O44: the cases of a step and of an edge all give a next state. -/
theorem theBlockNeverStops : Obligations.TheBlockNeverStops :=
  ⟨fun s => (step_cases s).imp fun _ => And.left, fun pins done s => (edge_cases pins done s).imp fun _ => And.left⟩

/-! ### The invariant of every step -/

/-- Settles O48: the reset memory is empty and the interface idle. -/
theorem invariantHoldsAtReset : Obligations.InvariantHoldsAtReset := ⟨Memory.wf_nil, rfl⟩

theorem takeReset_inv (d : DrawStream) (s : State) : (takeReset d s).Inv :=
  ⟨by rw [takeReset_txt]; exact freshTxt_wf d _ Memory.wf_nil le_rfl, rfl⟩

/-- Settles O50: each case of an edge keeps the text canonical, and none leaves a response on show with one owed. -/
theorem everyEdgeKeepsTheInvariant : Obligations.EveryEdgeKeepsTheInvariant := by
  intro pins done s t inv h
  have wf := inv.1
  obtain ⟨t', edge, cases⟩ := edge_cases pins done s
  obtain rfl : t' = t := by simpa [edge] using h
  obtain rfl | rfl | rfl | rfl | ⟨u, run, rfl⟩ := cases
  · exact takeReset_inv ..
  · exact ⟨wf, rfl⟩
  · exact inv
  · exact ⟨wf, rfl⟩
  · have wf' : Memory.wf u.txt = true := runWord_wf run wf
    exact ⟨wf', rfl⟩

/-- Settles O49: a reset fills the memory in canonical form, a word keeps it, and an idle edge is an edge. -/
theorem everyStepKeepsTheInvariant : Obligations.EveryStepKeepsTheInvariant := by
  intro s t inv h
  obtain ⟨t', step, cases⟩ := step_cases s
  obtain rfl : t' = t := by simpa [step] using h
  obtain ⟨rest, rfl⟩ | ⟨cw, rest, u, run, rfl⟩ | edge := cases
  · exact takeReset_inv ..
  · have wf : Memory.wf u.txt = true := runWord_wf run inv.1
    exact ⟨wf, rfl⟩
  · exact everyEdgeKeepsTheInvariant quietPins true s _ inv edge

end Sys2Proof.Machine
end

section
/-! The weekday and month lookups (43_parsers.md R122, R123): the numbers their letters leave, and what a draw among
them may be. -/

namespace Sys2Proof.Machine

/-- What letters may name: the fallback or the number of a row. -/
theorem mem_of_mem_namedBy {rows : List NameRow} {fallback v : Int} {c0 : Byte} {more : List Byte}
    (h : v ∈ namedBy rows fallback c0 more) : v ∈ fallback :: rows.map NameRow.value := by
  rw [namedBy] at h
  split_ifs at h
  · exact List.mem_cons.2 (.inl (List.mem_singleton.1 h))
  · exact List.mem_cons_of_mem _ (List.map_subset _ (List.filter_subset_self _) h)
  · exact List.mem_cons_of_mem _ (List.map_subset _
      (List.Subset.trans (List.filter_subset_self _) (List.filter_subset_self _)) h)

/-- Settles O31: every number in the tables and both fallbacks are in domain. -/
theorem lookupsAnswerInDomain : Obligations.LookupsAnswerInDomain := by
  have weekdays : ∀ v ∈ 5 :: weekdayRows.map NameRow.value, wdOk v = true := by decide
  have months : ∀ v ∈ 12 :: monthRows.map NameRow.value, monthOk v = true := by decide
  intro d n c0 c1 c2
  exact ⟨weekdays _ (mem_of_mem_namedBy (wdLookup_named d n c0 c1).1),
    months _ (mem_of_mem_namedBy (monLookup_named d n c0 c1 c2).1)⟩

/-! ### The letters of R122 and R123, one first letter at a time -/

/-- `T`: Tuesday and Thursday by the second letter. -/
theorem wdLookup_T (d : DrawStream) (n : Nat) (c1 : Byte) : wdLookup d n (charByte 'T') c1 =
    if c1 = charByte 'u' then (2, n) else if c1 = charByte 'h' then (4, n) else drawFrom d n 2 [4] := rfl

/-- `S`: Saturday and Sunday by the second letter. -/
theorem wdLookup_S (d : DrawStream) (n : Nat) (c1 : Byte) : wdLookup d n (charByte 'S') c1 =
    if c1 = charByte 'a' then (6, n) else if c1 = charByte 'u' then (0, n) else drawFrom d n 0 [6] := rfl

/-- `J`: January, June and July by the second and third letter. -/
theorem monLookup_J (d : DrawStream) (n : Nat) (c1 c2 : Byte) : monLookup d n (charByte 'J') c1 c2 =
    if c1 = charByte 'a' ∧ c2 = charByte 'n' then (1, n) else if c1 = charByte 'u' ∧ c2 = charByte 'n' then (6, n)
    else if c1 = charByte 'u' ∧ c2 = charByte 'l' then (7, n) else drawFrom d n 1 [6, 7] := rfl

/-- `M`: March and May by the third letter. -/
theorem monLookup_M (d : DrawStream) (n : Nat) (c1 c2 : Byte) : monLookup d n (charByte 'M') c1 c2 =
    if c2 = charByte 'r' then (3, n) else if c2 = charByte 'y' then (5, n) else drawFrom d n 3 [5] := rfl

/-- `A`: April and August by the second letter. -/
theorem monLookup_A (d : DrawStream) (n : Nat) (c1 c2 : Byte) : monLookup d n (charByte 'A') c1 c2 =
    if c1 = charByte 'p' then (4, n) else if c1 = charByte 'u' then (8, n) else drawFrom d n 4 [8] := rfl

/-- No weekday's first letter: Friday. -/
theorem wdLookup_fallback (d : DrawStream) (n : Nat) {c0 : Byte} (c1 : Byte)
    (none : c0 ∉ ['T', 'S', 'M', 'W', 'F'].map charByte) : wdLookup d n c0 c1 = (5, n) := by
  simp_all [wdLookup, charByte]

/-- No month's first letter but December's: December. -/
theorem monLookup_fallback (d : DrawStream) (n : Nat) {c0 : Byte} (c1 c2 : Byte)
    (none : c0 ∉ ['J', 'F', 'M', 'A', 'S', 'O', 'N'].map charByte) : monLookup d n c0 c1 c2 = (12, n) := by
  simp_all [monLookup, charByte]

/-- Settles O32: the lookups, one first letter at a time. -/
theorem lookupFallbacksAndLettersNotExamined : Obligations.LookupFallbacksAndLettersNotExamined :=
  fun d n _ c1 c2 => ⟨wdLookup_fallback d n c1, monLookup_fallback d n c1 c2, rfl, rfl, rfl, rfl, rfl, rfl, rfl, rfl,
    rfl, rfl, rfl⟩

/-! ### Draws -/

/-- The elements of a small set are what its draws can be, over all streams (00_scope.md R11). -/
theorem exists_drawFrom_iff (n : Nat) (a v : Int) {more : List Int} (small : more.length < 2 ^ 16) :
    (∃ d, (drawFrom d n a more).1 = v) ↔ v ∈ a :: more := by
  constructor
  · rintro ⟨d, rfl⟩
    exact (drawFrom_mem d n a more).1
  · intro mem
    obtain ⟨k, lt, rfl⟩ := List.mem_iff_getElem.1 mem
    rw [List.length_cons] at lt
    have pick : (BitVec.ofNat 16 k).toNat % (more.length + 1) = k := by
      rw [BitVec.toNat_ofNat, Nat.mod_eq_of_lt (a := k) (by omega), Nat.mod_eq_of_lt lt]
    exact ⟨fun _ => BitVec.ofNat 16 k, by rw [drawFrom, pick, List.getD_eq_getElem]⟩

/-- Settles O33: letters that decide nothing leave a draw from the candidates. -/
theorem lookupDrawsAdmitExactlyTheCandidates : Obligations.LookupDrawsAdmitExactlyTheCandidates := by
  intro n c1 c2 v
  refine ⟨fun notU notH => ?_, fun notA notU => ?_, fun notJan notJun notJul => ?_, fun notR notY => ?_,
    fun notP notU => ?_⟩
  · simp only [wdLookup_T, if_neg notU, if_neg notH]
    exact exists_drawFrom_iff n 2 v (by decide)
  · simp only [wdLookup_S, if_neg notA, if_neg notU]
    exact exists_drawFrom_iff n 0 v (by decide)
  · simp only [monLookup_J, if_neg notJan, if_neg notJun, if_neg notJul]
    exact exists_drawFrom_iff n 1 v (by decide)
  · simp only [monLookup_M, if_neg notR, if_neg notY]
    exact exists_drawFrom_iff n 3 v (by decide)
  · simp only [monLookup_A, if_neg notP, if_neg notU]
    exact exists_drawFrom_iff n 4 v (by decide)

end Sys2Proof.Machine
end

section
/-! The parsers (43_parsers.md R120 to R131): what the chunks of a text give PISO and PHTTP, how many draws they take,
and what SetDateTime then leaves. -/

namespace Sys2Proof.Machine

/-! ### Chunks -/

theorem chunkAt_of_digits {t : TxtAddr → Byte} {a : TxtAddr} (h : digitsAt t a = true) (base : Int) (n : Nat) :
    chunkAt base n t a = base + numberAt t a := if_pos h

theorem chunkAt_of_garbage {t : TxtAddr → Byte} {a : TxtAddr} (h : digitsAt t a = false) (base : Int) (n : Nat) :
    chunkAt base n t a = (Config.draw n).toInt := if_neg (by simp [h])

theorem drawsAt_of_digits {t : TxtAddr → Byte} {a : TxtAddr} (h : digitsAt t a = true) : drawsAt t a = 0 := if_pos h

theorem drawsAt_of_garbage {t : TxtAddr → Byte} {a : TxtAddr} (h : digitsAt t a = false) : drawsAt t a = 1 :=
  if_neg (by simp [h])

theorem drawsAt_le (t : TxtAddr → Byte) (a : TxtAddr) : drawsAt t a ≤ 1 := by
  rw [drawsAt]
  split <;> decide

theorem drawsAmong_le (values : List Int) : drawsAmong values ≤ 1 := by
  rw [drawsAmong]
  split <;> decide

/-- Two digits show a number below 100. -/
theorem numberAt_le {t : TxtAddr → Byte} {a : TxtAddr} (h : digitsAt t a = true) : numberAt t a ≤ 99 := by
  simp only [digitsAt, isDigit, Bool.and_eq_true, decide_eq_true_eq] at h
  rw [numberAt]
  omega

theorem hi_digitsByte (t : TxtAddr → Byte) (a : TxtAddr) : hi (digitsByte t a) = (t a).toNat % 16 := by
  rw [hi, digitsByte, extract_append_hi _ _ le_rfl, extract_all, BitVec.extractLsb'_toNat, Nat.shiftRight_zero]

theorem lo_digitsByte (t : TxtAddr → Byte) (a : TxtAddr) : lo (digitsByte t a) = (t (a + 1)).toNat % 16 := by
  rw [lo, digitsByte, extract_append_lo _ _ le_rfl, extract_all, BitVec.extractLsb'_toNat, Nat.shiftRight_zero]

/-- The BCD byte of the number two digits show has these digits as its nibbles (R130). -/
theorem bcd_numberAt {t : TxtAddr → Byte} {a : TxtAddr} (h : digitsAt t a = true) :
    bcd (numberAt t a) = digitsByte t a := by
  have shown := numberAt_le h
  simp only [digitsAt, isDigit, Bool.and_eq_true, decide_eq_true_eq] at h
  have nibbles : numberAt t a = 10 * hi (digitsByte t a) + lo (digitsByte t a) := by
    rw [hi_digitsByte, lo_digitsByte, numberAt]
    omega
  have valid : isBcd (digitsByte t a) = true := by
    rw [isBcd_iff, hi_digitsByte, lo_digitsByte]
    omega
  rw [← enc_of_le shown, nibbles, enc_digits valid]

/-! ### PISO -/

/-- PISO in every state (R124, R128). -/
theorem exec_piso_eq (s : State) : exec .piso s = .next { s with
    x := (setDateTime (isoFields Config.draw s.draws (readTxt s)).1 s.x).1
    rsp := 0x0000#16
    draws := (isoFields Config.draw s.draws (readTxt s)).2 } := by
  rw [exec_piso, respond_byte]
  rfl

/-- PHTTP in every state (R125, R128). -/
theorem exec_phttp_eq (s : State) : exec .phttp s = .next { s with
    x := (setDateTime (httpFields Config.draw s.draws (readTxt s)).1 s.x).1
    rsp := 0x0000#16
    draws := (httpFields Config.draw s.draws (readTxt s)).2 } := by
  rw [exec_phttp, respond_byte]
  rfl

/-- Settles O27: both parsers end in one store and one response. -/
theorem parsersCompleteOnEveryText : Obligations.ParsersCompleteOnEveryText :=
  fun s => ⟨⟨_, _, exec_piso_eq s⟩, ⟨_, _, exec_phttp_eq s⟩⟩

/-- The arguments PISO gives SetDateTime, chunk by chunk (R124). -/
theorem isoFields_at (n : Nat) (t : TxtAddr → Byte) : isoFields Config.draw n t =
    let nMonth := n + drawsAt t 2
    let nDay := nMonth + drawsAt t 5
    let nHour := nDay + drawsAt t 8
    let nMin := nHour + drawsAt t 11
    let nSec := nMin + drawsAt t 14
    ({ year := chunkAt 2000 n t 2, month := chunkAt 0 nMonth t 5, day := chunkAt 0 nDay t 8, wd := 0,
       hour := chunkAt 0 nHour t 11, min := chunkAt 0 nMin t 14, sec := chunkAt 0 nSec t 17, hun := 0 },
      nSec + drawsAt t 17) := by
  simp only [isoFields, yearOf_at n t (show (3 : TxtAddr) = 2 + 1 from rfl),
    chunk2_at _ t (show (6 : TxtAddr) = 5 + 1 from rfl), chunk2_at _ t (show (9 : TxtAddr) = 8 + 1 from rfl),
    chunk2_at _ t (show (12 : TxtAddr) = 11 + 1 from rfl), chunk2_at _ t (show (15 : TxtAddr) = 14 + 1 from rfl),
    chunk2_at _ t (show (18 : TxtAddr) = 17 + 1 from rfl)]

/-- Settles O24: with digits at every offset each chunk is its number and no draw is taken. -/
theorem pisoGivesTheSixNumbersToSetDateTime : Obligations.PisoGivesTheSixNumbersToSetDateTime := by
  intro s year month day hour min sec
  rw [exec_piso_eq, isoFields_at]
  simp only [chunkAt_of_digits, drawsAt_of_digits, year, month, day, hour, min, sec, zero_add, add_zero]

/-- What PISO gives SetDateTime for a text with digits at every offset but perhaps the day's (R124). -/
def isoShown (t : TxtAddr → Byte) (day : Int) : Fields where
  year := 2000 + (numberAt t 2 : Int)
  month := numberAt t 5
  day := day
  wd := 0
  hour := numberAt t 11
  min := numberAt t 14
  sec := numberAt t 17
  hun := 0

/-- The number stored for a year shown by two digits is the number they show (41_buffer.md R93). -/
theorem yearByte_shown {t : TxtAddr → Byte} {a : TxtAddr} (h : digitsAt t a = true) :
    bcd ((2000 + (numberAt t a : Int)) % 100).toNat = digitsByte t a := by
  have shown := numberAt_le h
  rw [← bcd_numberAt h]
  congr 1
  omega

/-- The buffer after a complete parse of a text with digits at every offset but perhaps the day's (R130). -/
theorem setDateTime_isoShown {t : TxtAddr → Byte} {day : Int} (year : digitsAt t 2 = true) (month : digitsAt t 5 = true)
    (hour : digitsAt t 11 = true) (min : digitsAt t 14 = true) (sec : digitsAt t 17 = true)
    (inDomain : ∀ r, (isoShown t day).inDomain r = true) (x : DateTime) :
    (setDateTime (isoShown t day) x).1 =
      { hun := 0x00#8, sec := digitsByte t 17, min := digitsByte t 14, hr := digitsByte t 11, day := bcd day.toNat,
        mon := digitsByte t 5, yr := digitsByte t 2, wd := 0x00#8 } := by
  rw [setDateTime_of_inDomain inDomain, Fields.buffer_eq_bcd inDomain]
  simp only [isoShown, yearByte_shown year, Int.toNat_natCast, bcd_numberAt, month, hour, min, sec]
  rfl

/-- The domains of R90 for a text with digits at every offset but perhaps the day's. -/
theorem isoShown_inDomain {t : TxtAddr → Byte} {day : Int} (month : 1 ≤ numberAt t 5 ∧ numberAt t 5 ≤ 12)
    (hday : 1 ≤ day ∧ day ≤ 31) (hour : numberAt t 11 ≤ 23) (min : numberAt t 14 ≤ 59) (sec : numberAt t 17 ≤ 59)
    (r : Reg) : (isoShown t day).inDomain r = true := by
  cases r <;> simp [Fields.inDomain, isoShown] <;> omega

/-- Settles O25: the six numbers in domain are stored as the bytes that show their digits. -/
theorem pisoOnAWellFormedText : Obligations.PisoOnAWellFormedText := by
  intro s year month day hour min sec hm hm' hd hd' hh hmi hs
  rw [pisoGivesTheSixNumbersToSetDateTime s year month day hour min sec]
  have stored := setDateTime_isoShown year month hour min sec
    (isoShown_inDomain ⟨hm, hm'⟩ ⟨Int.ofNat_le.2 hd, Int.ofNat_le.2 hd'⟩ hh hmi hs) s.x
  rw [Int.toNat_natCast, bcd_numberAt day] at stored
  exact congrArg _ (congrArg (fun x => { s with x := x, rsp := 0x0000#16 }) stored)

/-- SetDateTime with year and month in domain and a day that is not: it stops with YR and MON written (41_buffer.md
R92). -/
theorem setDateTime_of_bad_day {f : Fields} (year : f.inDomain .yr = true) (month : f.inDomain .mon = true)
    (day : f.inDomain .day = false) (x : DateTime) :
    (setDateTime f x).1 = { x with yr := f.byteFor .yr, mon := f.byteFor .mon } := by
  refine DateTime.ext_of_get fun r => ?_
  rw [setDateTime_get_place, Fields.firstInvalid_eq_three year month day]
  cases r <;> rfl

/-- The buffer after a parse that the day stops (95_test_vectors.md P4). -/
theorem setDateTime_isoShown_of_bad_day {t : TxtAddr → Byte} {day : Int} (year : digitsAt t 2 = true)
    (month : digitsAt t 5 = true) (hmonth : 1 ≤ numberAt t 5 ∧ numberAt t 5 ≤ 12) (hday : ¬ dayOk day = true)
    (x : DateTime) :
    (setDateTime (isoShown t day) x).1 = { x with yr := digitsByte t 2, mon := digitsByte t 5 } := by
  have yearIn : (isoShown t day).inDomain .yr = true := (yearOk_iff _).2 (by simp only [isoShown]; omega)
  have monthIn : (isoShown t day).inDomain .mon = true := (monthOk_iff _).2 (by simp only [isoShown]; omega)
  rw [setDateTime_of_bad_day yearIn monthIn (Bool.eq_false_iff.2 hday), Fields.byteFor_eq_bcd yearIn,
    Fields.byteFor_eq_bcd monthIn, ← yearByte_shown year, ← bcd_numberAt month]
  rfl

/-- Any element of INT is the chunk that is not two digits, for some stream (00_scope.md R11). -/
theorem exists_chunk2_eq (n : Nat) (c1 c0 : Byte) (g : BitVec 16) (garbage : (isDigit c1 && isDigit c0) = false) :
    ∃ d : DrawStream, chunk2 d n c1 c0 = (g.toInt, n + 1) :=
  ⟨fun _ => g, chunk2_garbage _ n garbage⟩

/-- Any element of INT is the year that is not two digits, for some stream (00_scope.md R11). -/
theorem exists_yearOf_eq (n : Nat) (c1 c0 : Byte) (g : BitVec 16) (garbage : (isDigit c1 && isDigit c0) = false) :
    ∃ d : DrawStream, yearOf d n c1 c0 = (g.toInt, n + 1) :=
  ⟨fun _ => g, yearOf_garbage _ n garbage⟩

/-- Settles O35: the day is the one draw; in domain it completes the parse, out of domain it stops it. -/
theorem pisoWithAGarbageDay : Obligations.PisoWithAGarbageDay := by
  refine ⟨fun s year month day hour min sec hm hm' hh hmi hs => ?_, exists_chunk2_eq⟩
  have fields : isoFields Config.draw s.draws (readTxt s) =
      (isoShown (readTxt s) (Config.draw s.draws).toInt, s.draws + 1) := by
    rw [isoFields_at]
    simp only [chunkAt_of_digits, drawsAt_of_digits, chunkAt_of_garbage, drawsAt_of_garbage, year, month, day, hour,
      min, sec, zero_add, add_zero, isoShown]
  rw [exec_piso_eq, fields]
  split
  next drawn =>
    rw [setDateTime_isoShown year month hour min sec (isoShown_inDomain ⟨hm, hm'⟩ drawn hh hmi hs)]
  next drawn =>
    rw [setDateTime_isoShown_of_bad_day year month ⟨hm, hm'⟩ (mt (dayOk_iff _).1 drawn)]

/-- Settles O36: the year is the first draw, and SetDateTime checks it first. -/
theorem pisoWithAGarbageYear : Obligations.PisoWithAGarbageYear := by
  refine ⟨fun s garbage => ⟨_, _, exec_piso_eq s, ?_⟩, exists_yearOf_eq⟩
  have year : (isoFields Config.draw s.draws (readTxt s)).1.year = (Config.draw s.draws).toInt := by
    rw [isoFields_at]
    exact chunkAt_of_garbage garbage 2000 s.draws
  split
  next inDomain =>
    rw [setDateTime_yr (year ▸ inDomain), year]
    congr 1
    omega
  next early => rw [setDateTime_of_year_lt (by omega)]

/-- The arguments PISO gives SetDateTime for a text with no two digits at any offset: six draws (R120, R121). -/
theorem isoFields_of_garbage (d : DrawStream) (n : Nat) {t : TxtAddr → Byte} (year : digitsAt t 2 = false)
    (month : digitsAt t 5 = false) (day : digitsAt t 8 = false) (hour : digitsAt t 11 = false)
    (min : digitsAt t 14 = false) (sec : digitsAt t 17 = false) : isoFields d n t =
      ({ year := (d n).toInt, month := (d (n + 1)).toInt, day := (d (n + 2)).toInt, wd := 0,
         hour := (d (n + 3)).toInt, min := (d (n + 4)).toInt, sec := (d (n + 5)).toInt, hun := 0 }, n + 6) := by
  have hyear : yearOf d n (t 2) (t 3) = ((d n).toInt, n + 1) := yearOf_garbage d n year
  have hmonth : chunk2 d (n + 1) (t 5) (t 6) = ((d (n + 1)).toInt, n + 2) := chunk2_garbage d _ month
  have hday : chunk2 d (n + 2) (t 8) (t 9) = ((d (n + 2)).toInt, n + 3) := chunk2_garbage d _ day
  have hhour : chunk2 d (n + 3) (t 11) (t 12) = ((d (n + 3)).toInt, n + 4) := chunk2_garbage d _ hour
  have hmin : chunk2 d (n + 4) (t 14) (t 15) = ((d (n + 4)).toInt, n + 5) := chunk2_garbage d _ min
  have hsec : chunk2 d (n + 5) (t 17) (t 18) = ((d (n + 5)).toInt, n + 6) := chunk2_garbage d _ sec
  simp only [isoFields, hyear, hmonth, hday, hhour, hmin, hsec]

/-- Settles O34: the stream with the six values at the six indices. -/
theorem sixGarbageChunksAreSixIndependentDraws : Obligations.SixGarbageChunksAreSixIndependentDraws := by
  intro n t year month day hour min sec hy hm hd hh hmi hs
  refine ⟨fun k => [year, month, day, hour, min, sec].getD (k - n) 0, ?_⟩
  rw [isoFields_of_garbage _ n hy hm hd hh hmi hs]
  simp

/-- SetDateTime leaves a register its new byte or its old one. -/
theorem setDateTime_get_or (f : Fields) (x : DateTime) (r : Reg) :
    (setDateTime f x).1.get r = f.byteFor r ∨ (setDateTime f x).1.get r = x.get r := by
  rw [setDateTime_get]
  exact ite_eq_or_eq _ _ _

/-- PISO gives weekday 0 and hundredth 0, the byte 0x00 (R124). -/
theorem isoFields_forced (d : DrawStream) (n : Nat) (t : TxtAddr → Byte) :
    (isoFields d n t).1.byteFor .wd = 0x00#8 ∧ (isoFields d n t).1.byteFor .hun = 0x00#8 := by
  simp only [isoFields, Fields.byteFor]
  decide

/-- Settles O38: SetDateTime stores the forced byte or leaves the register. -/
theorem pisoForcesSunday : Obligations.PisoForcesSunday := by
  intro s
  obtain ⟨wd, hun⟩ := isoFields_forced Config.draw s.draws (readTxt s)
  refine ⟨_, exec_piso_eq s, ?_, ?_⟩
  · exact wd ▸ setDateTime_get_or _ s.x .wd
  · exact hun ▸ setDateTime_get_or _ s.x .hun

end Sys2Proof.Machine
end

section
/-! The HTTP-date parser (43_parsers.md R125, R126): the arguments it gives SetDateTime for any text. Then, for both
parsers, how many draws a parse takes and which bytes of the text it reads (20_memory.md R45). -/

namespace Sys2Proof.Machine

/-! ### PHTTP on any text -/

/-- The arguments PHTTP gives SetDateTime: a weekday and a month among those their letters leave, and the five
chunks. -/
theorem httpFields_at (n : Nat) (t : TxtAddr → Byte) :
    let p := prefixSkip t
    let weekdays := namedBy weekdayRows 5 (t p) [t (p + 1)]
    let months := namedBy monthRows 12 (t (p + 8)) [t (p + 9), t (p + 10)]
    let nDay := n + drawsAmong weekdays
    let nMonth := nDay + drawsAt t (p + 5)
    let nYear := nMonth + drawsAmong months
    let nHour := nYear + drawsAt t (p + 14)
    let nMin := nHour + drawsAt t (p + 17)
    let nSec := nMin + drawsAt t (p + 20)
    ∃ wd ∈ weekdays, ∃ month ∈ months, httpFields Config.draw n t =
      ({ year := chunkAt 2000 nYear t (p + 14), month := month, day := chunkAt 0 nDay t (p + 5), wd := wd,
         hour := chunkAt 0 nHour t (p + 17), min := chunkAt 0 nMin t (p + 20), sec := chunkAt 0 nSec t (p + 23),
         hun := 0 }, nSec + drawsAt t (p + 23)) := by
  intro p weekdays months nDay nMonth nYear nHour nMin nSec
  obtain ⟨wdMem, wdDraws : _ = nDay⟩ := wdLookup_named Config.draw n (t p) (t (p + 1))
  obtain ⟨monthMem, monthDraws : _ = nYear⟩ :=
    monLookup_named Config.draw nMonth (t (p + 8)) (t (p + 9)) (t (p + 10))
  have next (k : TxtAddr) : p + (k + 1) = p + k + 1 := (BitVec.add_assoc p k 1).symm
  have day : chunk2 Config.draw nDay (t (p + 5)) (t (p + 6)) = (_, nMonth) := chunk2_at nDay t (next 5)
  have year : yearOf Config.draw nYear (t (p + 14)) (t (p + 15)) = (_, nHour) := yearOf_at nYear t (next 14)
  have hour : chunk2 Config.draw nHour (t (p + 17)) (t (p + 18)) = (_, nMin) := chunk2_at nHour t (next 17)
  have min : chunk2 Config.draw nMin (t (p + 20)) (t (p + 21)) = (_, nSec) := chunk2_at nMin t (next 20)
  have sec : chunk2 Config.draw nSec (t (p + 23)) (t (p + 24)) = _ := chunk2_at nSec t (next 23)
  have skip : prefixSkip t = p := rfl
  refine ⟨_, wdMem, _, monthMem, ?_⟩
  simp only [httpFields, skip, wdDraws, day, monthDraws, year, hour, min, sec]

/-- Settles O60: SetDateTime of these arguments, whose effect its first field out of domain decides. -/
theorem phttpGivesTheParsedFieldsToSetDateTime : Obligations.PhttpGivesTheParsedFieldsToSetDateTime := by
  rintro s p rfl
  obtain ⟨wd, wdMem, month, monthMem, fields⟩ := httpFields_at s.draws (readTxt s)
  refine ⟨wd, wdMem, month, monthMem, ?_, setDateTime_get_place _ s.x⟩
  rw [exec_phttp_eq, fields]
  rfl

/-- A weekday's name leaves its number alone (R122, R130). -/
theorem namedBy_weekdayAt {t : TxtAddr → Byte} {a : TxtAddr} {k : Nat} (h : weekdayAt t a k) :
    namedBy weekdayRows 5 (t a) [t (a + 1)] = [(k : Int)] ∧ k ≤ 6 := by
  obtain ⟨name, get, letters⟩ := Option.map_eq_some_iff.1 h
  obtain ⟨lt, rfl⟩ := List.getElem?_eq_some_iff.1 get
  have lt' : k < 7 := lt
  have named : ∀ k : Fin 7, ∀ c0 c1 c2 : Byte, weekdayNames[k].map charByte = [c0, c1, c2] →
      namedBy weekdayRows 5 c0 [c1] = [(k : Int)] := by
    intro k c0 c1 c2 letters
    fin_cases k <;> cases letters <;> decide
  exact ⟨named ⟨k, lt'⟩ _ _ _ letters, by omega⟩

/-- A month's name leaves its number alone (R123, R130). -/
theorem namedBy_monthAt {t : TxtAddr → Byte} {a : TxtAddr} {m : Nat} (h : monthAt t a m) :
    namedBy monthRows 12 (t a) [t (a + 1), t (a + 2)] = [(m : Int)] ∧ 1 ≤ m ∧ m ≤ 12 := by
  obtain ⟨pos, inTable⟩ := h
  obtain ⟨name, get, letters⟩ := Option.map_eq_some_iff.1 inTable
  obtain ⟨lt, rfl⟩ := List.getElem?_eq_some_iff.1 get
  have lt' : m - 1 < 12 := lt
  have named : ∀ k : Fin 12, ∀ c0 c1 c2 : Byte, monthNames[k].map charByte = [c0, c1, c2] →
      namedBy monthRows 12 c0 [c1, c2] = [((k + 1 : Nat) : Int)] := by
    intro k c0 c1 c2 letters
    fin_cases k <;> cases letters <;> decide
  refine ⟨?_, pos, by omega⟩
  rw [named ⟨m - 1, lt'⟩ _ _ _ letters]
  simp only [Nat.sub_add_cancel pos]

/-- What PHTTP gives SetDateTime for a text with names and digits at every place (R125, R130). -/
def httpShown (t : TxtAddr → Byte) (p : TxtAddr) (wd month : Nat) : Fields where
  year := 2000 + (numberAt t (p + 14) : Int)
  month := month
  day := numberAt t (p + 5)
  wd := wd
  hour := numberAt t (p + 17)
  min := numberAt t (p + 20)
  sec := numberAt t (p + 23)
  hun := 0

/-- Names and digits at every place take no draw. -/
theorem httpFields_shown (n : Nat) {t : TxtAddr → Byte} {p : TxtAddr} {wd month : Nat} (skip : prefixSkip t = p)
    (weekdayName : weekdayAt t p wd) (monthName : monthAt t (p + 8) month) (day : digitsAt t (p + 5) = true)
    (year : digitsAt t (p + 14) = true) (hour : digitsAt t (p + 17) = true) (min : digitsAt t (p + 20) = true)
    (sec : digitsAt t (p + 23) = true) : httpFields Config.draw n t = (httpShown t p wd month, n) := by
  have weekdays := (namedBy_weekdayAt weekdayName).1
  have months : namedBy monthRows 12 (t (p + 8)) [t (p + 9), t (p + 10)] = [(month : Int)] := by
    rw [← (namedBy_monthAt monthName).1, BitVec.add_assoc, BitVec.add_assoc]
    rfl
  obtain ⟨wd', wdMem, month', monthMem, fields⟩ := httpFields_at n t
  rw [skip, weekdays] at wdMem
  rw [skip, months] at monthMem
  obtain rfl := List.mem_singleton.1 wdMem
  obtain rfl := List.mem_singleton.1 monthMem
  rw [fields]
  simp only [skip, weekdays, months, drawsAmong, chunkAt_of_digits, drawsAt_of_digits, day, year, hour, min, sec,
    List.length_singleton, if_true, zero_add, add_zero, httpShown]

/-- The domains of R90 for a text with names and digits at every place: the names are in domain. -/
theorem httpShown_inDomain {t : TxtAddr → Byte} {p : TxtAddr} {wd month : Nat} (weekdayName : weekdayAt t p wd)
    (monthName : monthAt t (p + 8) month) (day : 1 ≤ numberAt t (p + 5) ∧ numberAt t (p + 5) ≤ 31)
    (hour : numberAt t (p + 17) ≤ 23) (min : numberAt t (p + 20) ≤ 59) (sec : numberAt t (p + 23) ≤ 59) (r : Reg) :
    (httpShown t p wd month).inDomain r = true := by
  have weekday_le := (namedBy_weekdayAt weekdayName).2
  have month_range := (namedBy_monthAt monthName).2
  cases r <;> simp [Fields.inDomain, httpShown] <;> omega

/-- Settles O26: the names' numbers and the chunks' numbers are in domain and stored. -/
theorem phttpOnAWellFormedText : Obligations.PhttpOnAWellFormedText := by
  intro s p wd month skip weekday monthName day year hour min sec hd hd' hh hmi hs
  have inDomain := httpShown_inDomain weekday monthName ⟨hd, hd'⟩ hh hmi hs
  rw [exec_phttp_eq, httpFields_shown s.draws skip.symm weekday monthName day year hour min sec,
    setDateTime_of_inDomain inDomain, Fields.buffer_eq_bcd inDomain]
  simp only [httpShown, yearByte_shown year, Int.toNat_natCast, bcd_numberAt, day, hour, min, sec]
  rfl

/-! ### Draws -/

theorem drawsAt_eq (t : TxtAddr → Byte) (a : TxtAddr) : drawsAt t a = if !digitsAt t a then 1 else 0 := by
  rw [drawsAt]
  cases digitsAt t a <;> rfl

/-- PISO draws once for each chunk that is not two digits (R129). -/
theorem isoFields_draws (n : Nat) (t : TxtAddr → Byte) :
    (isoFields Config.draw n t).2 = n + [2, 5, 8, 11, 14, 17].countP (fun a => !digitsAt t a) := by
  rw [isoFields_at]
  simp only [List.countP_cons, List.countP_nil, ← drawsAt_eq]
  omega

/-- PHTTP draws at most once for each of its seven values (R129). -/
theorem httpFields_draws (n : Nat) (t : TxtAddr → Byte) :
    n ≤ (httpFields Config.draw n t).2 ∧ (httpFields Config.draw n t).2 ≤ n + 7 := by
  obtain ⟨_, _, _, _, fields⟩ := httpFields_at n t
  have weekday := drawsAmong_le (namedBy weekdayRows 5 (t (prefixSkip t)) [t (prefixSkip t + 1)])
  have month := drawsAmong_le
    (namedBy monthRows 12 (t (prefixSkip t + 8)) [t (prefixSkip t + 9), t (prefixSkip t + 10)])
  have day := drawsAt_le t (prefixSkip t + 5)
  have year := drawsAt_le t (prefixSkip t + 14)
  have hour := drawsAt_le t (prefixSkip t + 17)
  have min := drawsAt_le t (prefixSkip t + 20)
  have sec := drawsAt_le t (prefixSkip t + 23)
  simp only [fields]
  omega

/-- Settles O37: the parsers' counts; no other command touches the counter. -/
theorem drawsOfEachCommand : Obligations.DrawsOfEachCommand := by
  intro i s t h
  refine ⟨?_, ?_, fun notPiso notPhttp => ?_⟩
  · rintro rfl
    rw [exec_piso_eq] at h
    cases h
    exact isoFields_draws s.draws (readTxt s)
  · rintro rfl
    rw [exec_phttp_eq] at h
    cases h
    exact httpFields_draws s.draws (readTxt s)
  · cases i with
    | piso => exact absurd rfl notPiso
    | phttp => exact absurd rfl notPhttp
    | enc | dec | setdt | lddt | rddt | wrtxt | rdtxt => cases h; rfl

/-! ### The bytes a parse reads -/

theorem isoReads_toNat : isoReads.map (·.toNat) = [2, 3, 5, 6, 8, 9, 11, 12, 14, 15, 17, 18] := rfl

/-- Settles O28: PISO depends on the text at its twelve addresses only. -/
theorem pisoReadsTwelveBytes : Obligations.PisoReadsTwelveBytes := by
  intro s m same
  have reads : ∀ a ∈ isoReads, readTxt { s with txt := m } a = readTxt s a := fun a ha =>
    same a.toNat (isoReads_toNat ▸ List.mem_map_of_mem ha)
  rw [exec_piso_eq, exec_piso_eq, mapNext_next, isoFields_congr reads]

/-- The skip as R45 counts it. -/
theorem prefixSkip_toNat (t : TxtAddr → Byte) : (prefixSkip t).toNat = if t 0 = 0x44#8 then 6 else 0 := by
  rw [prefixSkip]
  split <;> rfl

theorem httpReads_toNat : httpReads.map (·.toNat) = [0, 1, 5, 6, 8, 9, 10, 14, 15, 17, 18, 20, 21, 23, 24] := rfl

/-- No address PHTTP reads is beyond the 64 bytes. -/
theorem skip_add_toNat : ∀ p ∈ ([6, 0] : List TxtAddr), ∀ k ∈ httpReads, (p + k).toNat = p.toNat + k.toNat := by
  decide

/-- Settles O29: PHTTP depends on the text at 0 and at the fifteen offsets from the skip on. -/
theorem phttpReadsFifteenOrSixteenBytes : Obligations.PhttpReadsFifteenOrSixteenBytes := by
  intro s m first same
  have reads : ∀ k ∈ httpReads, readTxt { s with txt := m } (prefixSkip (readTxt s) + k) =
      readTxt s (prefixSkip (readTxt s) + k) := fun k hk => by
    have agree := same k.toNat (httpReads_toNat ▸ List.mem_map_of_mem hk)
    rw [readTxt, readTxt, skip_add_toNat _ (prefixSkip_mem _) k hk, prefixSkip_toNat]
    exact agree
  rw [exec_phttp_eq, exec_phttp_eq, mapNext_next, httpFields_congr first reads]

/-- Settles O30: with the skip every address is six further on. -/
theorem leadingDSkipsSixCharacters : Obligations.LeadingDSkipsSixCharacters := by
  intro d n t u ht hu shifted
  have skipT : prefixSkip t = 6 := if_pos ht
  have skipU : prefixSkip u = 0 := if_neg hu
  have same (k : TxtAddr) (hk : k ≤ 24) : t (6 + k) = u k := by rw [shifted k hk, add_comm]
  have first : t 6 = u 0 := same 0 (by decide)
  simp (disch := decide) only [httpFields, skipT, skipU, zero_add, same, first]

end Sys2Proof.Machine
end

section
/-! Reset, the handshake and runs (30_encoding.md R72, 70_reset_and_hazards.md R170, R180): what each clock edge leaves
on the pins, and that the edges of one command are one step. -/

namespace Sys2Proof.Machine

/-! ### The step and the quiet block -/

/-- Settles O45: a word that decodes runs as its command. -/
theorem stepRunsTheDecodedCommand : Obligations.StepRunsTheDecodedCommand := by
  intro s cw rest i inputs decoded
  rw [step_cmd inputs, runWord_ok decoded]

/-- An edge with nothing presented changes the channel's bits at most. -/
theorem edge_quiet {pins : PinsIn} (rst : pins.rst = false) (quiet : pins.cmdValid = false) (done : Bool) (s : State) :
    ∃ t, edge pins done s = .next t ∧ t.x = s.x ∧ t.txt = s.txt ∧ t.rsp = s.rsp ∧ t.draws = s.draws := by
  cases busy : s.busy
  case true =>
    refine ⟨_, edge_busy rst busy done, ?_⟩
    cases done <;> exact ⟨rfl, rfl, rfl, rfl⟩
  cases presented : s.rspValid
  case true => exact ⟨_, edge_presented rst busy presented done, rfl, rfl, rfl, rfl⟩
  exact ⟨_, edge_none rst (by simp [ready, busy, presented]) quiet done, rfl, rfl, rfl, rfl⟩

/-- Settles O46: a step with nothing presented is a quiet edge. -/
theorem nothingPresentedNothingChanges : Obligations.NothingPresentedNothingChanges :=
  ⟨fun s inputs => by rw [step_nil inputs]; exact edge_quiet rfl rfl true s,
    fun _ done s rst quiet => edge_quiet rst quiet done s⟩

/-- Settles O47: the reset state's interface is idle and its text memory empty. -/
theorem resetLeavesTheInterfaceIdle : Obligations.ResetLeavesTheInterfaceIdle :=
  ⟨⟨Memory.wf_nil, rfl, rfl⟩, rfl, rfl⟩

/-! ### Reset -/

/-- The registers after a reset: register `i` is draw `n + i` (R170). -/
theorem freshRegs_get (d : DrawStream) (n : Nat) (r : Reg) :
    (freshRegs d n).get r = (d (n + r.idx.toNat)).setWidth 8 := by
  cases r <;> rfl

/-- The text after a reset: byte `a` is draw `n + 8 + a` (R170). -/
theorem readTxt_takeReset (d : DrawStream) (s : State) (a : TxtAddr) :
    readTxt (takeReset d s) a = (d (s.draws + 8 + a.toNat)).setWidth 8 := by
  rw [readTxt, takeReset_txt, freshTxt_read d _ Memory.wf_nil le_rfl, if_pos (show a.toNat < Config.txtLen from a.isLt)]

/-- A reset reads the count of draws and the inputs of the state before it, nothing else. -/
theorem takeReset_congr (d : DrawStream) {s s' : State} (draws : s.draws = s'.draws) (inputs : s.inputs = s'.inputs) :
    takeReset d s = takeReset d s' := by
  rw [takeReset, takeReset, draws, inputs]

/-- Settles O52: the state a reset leaves is made of draws and the remaining inputs. -/
theorem resetForgetsEverything : Obligations.ResetForgetsEverything := by
  intro s s' rest inputs inputs' draws
  refine ⟨?_, _, step_rst inputs, rfl, rfl, rfl, freshRegs_get Config.draw s.draws, readTxt_takeReset Config.draw _⟩
  rw [step_rst inputs, step_rst inputs', takeReset_congr Config.draw (s := { s with inputs := rest })
    (s' := { s' with inputs := rest }) draws rfl]

/-- Settles O53: with `rst` = 1 the pins are low and the edge is the reset, whatever else. -/
theorem resetAcceptsNothingAndAbandons : Obligations.ResetAcceptsNothingAndAbandons :=
  fun s pins done rst => ⟨rfl, rfl, _, edge_rst rst done s,
    edge_rst (pins := { pins with cmdValid := false }) rst done s, rfl, rfl⟩

/-! ### The handshake -/

/-- The edge at which a ready block accepts a word (R72). -/
theorem edge_accepts {cw : CmdWord} {s u : State} (rdy : ready s = true) (run : runWord cw s = .next u) (done : Bool) :
    edge ⟨false, true, cw⟩ done s = .next (inFlight u) := by
  rw [edge_accept (pins := ⟨false, true, cw⟩) rfl rdy rfl, run, mapNext_next]

/-- Settles O54: an edge accepts, waits, answers or ends the response by the channel's two bits alone. -/
theorem oneCommandInFlightOneCycleOfResponse : Obligations.OneCommandInFlightOneCycleOfResponse := by
  refine ⟨fun cw done s rdy => ?_, fun pins s rst busy => ?_⟩
  · obtain ⟨u, run⟩ := runWord_next cw s
    exact ⟨_, edge_accepts rdy run done, rfl, rfl, rfl⟩
  · refine ⟨edge_busy rst busy false, presenting s, idle (presenting s), edge_busy rst busy true, rfl, rfl,
      fun pins' done' rst' => ⟨edge_presented rst' rfl rfl done', rfl, rfl⟩⟩

/-- Edges with a response owed and not given leave everything (R72). -/
theorem edges_wait {s : State} (busy : s.busy = true) (waits : List (PinsIn × Bool))
    (waiting : ∀ w ∈ waits, w.1.rst = false ∧ w.2 = false) (rest : List (PinsIn × Bool)) :
    edges (waits ++ rest) s = edges rest s := by
  induction waits with
  | nil => rfl
  | cons w waits ih =>
    obtain ⟨pins, done⟩ := w
    obtain ⟨⟨rst, done_false⟩, later⟩ := List.forall_mem_cons.1 waiting
    rw [List.cons_append, edges_cons (edge_busy rst busy done), if_neg (by simpa using done_false), ih later]

/-- A ready block is idle already. -/
theorem idle_of_ready {s : State} (rdy : ready s = true) : idle s = s := by
  obtain ⟨x, txt, busy, rspValid, rsp, inputs, draws⟩ := s
  simp only [ready, Bool.and_eq_true, Bool.not_eq_true'] at rdy
  obtain ⟨rfl, rfl⟩ := rdy
  rfl

/-- Settles O55: the accepting edge runs the word, the waiting edges change nothing, the answering edge presents. -/
theorem handshakeRefinesStep : Obligations.HandshakeRefinesStep := by
  intro s cw d waits last rdy waiting rst
  obtain ⟨u, run⟩ := runWord_next cw s
  rw [List.cons_append, edges_cons (edge_accepts rdy run d), edges_wait rfl waits waiting,
    edges_cons (edge_busy rst rfl true), edges_nil, step_presentNext, idle_of_ready rdy, run, mapNext_next]
  rfl

/-! ### Runs -/

/-- Settles O56: each word's step completes with one response, so runs join. -/
theorem everyWordGetsOneResponse : Obligations.EveryWordGetsOneResponse := by
  constructor
  · intro cws
    induction cws with
    | nil => exact fun s => ⟨[], s, rfl, rfl⟩
    | cons cw cws ih =>
      intro s
      obtain ⟨t, first⟩ := theBlockNeverStops.1 (presentNext cw s)
      obtain ⟨rs, u, run, length⟩ := ih t
      exact ⟨t.rsp :: rs, u, by rw [respondAll_cons first, run]; rfl,
        by rw [List.length_cons, length, List.length_cons]⟩
  · intro cws more
    induction cws with
    | nil =>
      rintro s t u rs rs' ⟨⟩ run
      exact run
    | cons cw cws ih =>
      intro s t u rs rs' run run'
      obtain ⟨s', first⟩ := theBlockNeverStops.1 (presentNext cw s)
      rw [respondAll_cons first, Option.map_eq_some_iff] at run
      obtain ⟨⟨rs₀, t₀⟩, run, ⟨⟩⟩ := run
      rw [List.cons_append, respondAll_cons first, ih s' t₀ u rs₀ rs' run run']
      rfl

end Sys2Proof.Machine
end

section
/-! The assembler (30_encoding.md R70, R71): a command line is accepted exactly when its operands fit their fields, and
stands for the command its numbers build; the two pseudo-instructions. -/

namespace Sys2Proof.Machine

/-! ### Command lines -/

/-- A command line: the operands must fit, then their numbers build the command (R70). -/
theorem assemble_cmd (m : Mnemonic) (os : List AsmOperand) : assemble (.cmd m os) =
    if operandsFit m.operandWidths os then (buildInstr m (os.map operandValue)).map ([·]) else none := rfl

/-- A command line whose operands fit assembles to the command their numbers build. -/
theorem assemble_cmd_of_fit {m : Mnemonic} {os : List AsmOperand} {i : Instr}
    (fit : operandsFit m.operandWidths os = true) (build : buildInstr m (os.map operandValue) = some i) :
    assemble (.cmd m os) = some [i] := by
  rw [assemble_cmd, if_pos fit, build]
  rfl

/-- The right number of numbers builds a command. -/
theorem exists_buildInstr : ∀ (m : Mnemonic) (ns : List Nat), ns.length = m.operandWidths.length →
    ∃ i, buildInstr m ns = some i
  | .enc, [_], _ => ⟨_, rfl⟩
  | .dec, [_], _ => ⟨_, rfl⟩
  | .setdt, [_, _, _, _, _, _, _, _], _ => ⟨_, rfl⟩
  | .lddt, [_, _], _ => ⟨_, rfl⟩
  | .rddt, [_], _ => ⟨_, rfl⟩
  | .piso, [], _ => ⟨_, rfl⟩
  | .phttp, [], _ => ⟨_, rfl⟩
  | .wrtxt, [_, _], _ => ⟨_, rfl⟩
  | .rdtxt, [_], _ => ⟨_, rfl⟩

/-- The operands fit when each fits its field, in whatever words that is said. -/
theorem operandsFit_iff {fit : Nat → AsmOperand → Prop} (fit_iff : ∀ w o, fit w o ↔ o.fits w = true) (ws : List Nat)
    (os : List AsmOperand) : operandsFit ws os = true ↔ List.Forall₂ fit ws os := by
  induction ws generalizing os with
  | nil => cases os <;> simp [operandsFit]
  | cons w ws ih =>
    cases os with
    | nil => simp [operandsFit]
    | cons o os => rw [operandsFit, Bool.and_eq_true, List.forall₂_cons, ih, fit_iff]

theorem length_eq_of_operandsFit {ws : List Nat} {os : List AsmOperand} (h : operandsFit ws os = true) :
    os.length = ws.length :=
  ((operandsFit_iff (fun _ _ => Iff.rfl) ws os).1 h).length_eq.symm

/-- A command line is accepted exactly when its operands fit. -/
theorem exists_assemble_cmd_iff (m : Mnemonic) (os : List AsmOperand) :
    (∃ is, assemble (.cmd m os) = some is) ↔ operandsFit m.operandWidths os = true := by
  rw [assemble_cmd]
  split
  next fit =>
    obtain ⟨i, build⟩ := exists_buildInstr m (os.map operandValue) (by
      rw [List.length_map, length_eq_of_operandsFit fit])
    exact iff_of_true ⟨[i], by rw [build]; rfl⟩ fit
  next unfit => exact iff_of_false (by simp) unfit

/-- What fits as a character or a register name fits as the number it stands for. -/
theorem fits_operandValue {w : Nat} {o : AsmOperand} (h : o.fits w = true) :
    (AsmOperand.num (operandValue o)).fits w = true := by
  cases o with
  | num n => exact h
  | chr c =>
    simp only [AsmOperand.fits, Bool.and_eq_true] at h
    exact h.2
  | reg r =>
    obtain rfl := of_decide_eq_true h
    exact decide_eq_true r.idx.isLt

/-- An accepted line means the same with each operand written as its number. -/
theorem assemble_cmd_values {m : Mnemonic} {os : List AsmOperand} {is : List Instr}
    (h : assemble (.cmd m os) = some is) : assemble (.cmd m (os.map fun o => .num (operandValue o))) = some is := by
  have fit := (exists_assemble_cmd_iff m os).1 ⟨is, h⟩
  have fit_values : operandsFit m.operandWidths (os.map fun o => .num (operandValue o)) = true := by
    have each := (operandsFit_iff (fun _ _ => Iff.rfl) _ _).1 fit
    exact (operandsFit_iff (fun _ _ => Iff.rfl) _ _).2
      (List.forall₂_map_right_iff.2 (each.imp fun _ _ => fits_operandValue))
  have values : (os.map fun o => AsmOperand.num (operandValue o)).map operandValue = os.map operandValue := by
    rw [List.map_map]
    rfl
  rw [assemble_cmd, if_pos fit] at h
  rw [assemble_cmd, if_pos fit_values, values, h]

/-- What R70 asks of an operand for a field of that width. -/
def fitsField (w : Nat) : AsmOperand → Prop
  | .num n => n < 2 ^ w
  | .chr c => c.toNat < 128 ∧ c.toNat < 2 ^ w
  | .reg r => w = 3 ∧ r.idx.toNat < 2 ^ w

theorem fitsField_iff (w : Nat) (o : AsmOperand) : fitsField w o ↔ o.fits w = true := by
  cases o with
  | num n => simp only [fitsField, AsmOperand.fits, decide_eq_true_eq]
  | chr c => simp only [fitsField, AsmOperand.fits, Bool.and_eq_true, decide_eq_true_eq]
  | reg r =>
    rw [fitsField, AsmOperand.fits, decide_eq_true_eq]
    exact and_iff_left_of_imp fun h => h ▸ r.idx.isLt

theorem wellFormed_txtstr_iff (a : Nat) (text : List Char) :
    (AsmLine.txtstr a text).wellFormed = true ↔ a + text.length ≤ 64 ∧ ∀ c ∈ text, c.toNat < 128 := by
  simp only [AsmLine.wellFormed, Bool.and_eq_true, List.all_eq_true, decide_eq_true_eq]

/-- Settles O57: a line is accepted exactly when it is well formed, and its operands count by their numbers. -/
theorem assemblyErrorsAreTheOperandsThatDoNotFit : Obligations.AssemblyErrorsAreTheOperandsThatDoNotFit := by
  refine ⟨fun l => ?_, fun m os is h => ?_⟩
  · cases l with
    | cmd m os =>
      refine (exists_assemble_cmd_iff m os).trans ?_
      cases m <;> exact operandsFit_iff fitsField_iff _ os
    | txtstr a text =>
      refine Iff.trans ?_ (wellFormed_txtstr_iff a text)
      rw [assemble]
      split
      next fit => exact iff_of_true ⟨_, rfl⟩ fit
      next unfit => exact iff_of_false (by simp) unfit
    | rdall => exact iff_of_true ⟨_, rfl⟩ trivial
  · rw [← assemble_cmd_values h]
    congr 3
    funext o
    cases o <;> rfl

theorem fits_num {w : Nat} (x : BitVec w) : (AsmOperand.num x.toNat).fits w = true := decide_eq_true x.isLt

theorem fits_reg (r : Reg) : (AsmOperand.reg r).fits 3 = true := rfl

/-- Settles O58: each operand as a number fits its field and is read back from its number. -/
theorem everyCommandCanBeAssembled : Obligations.EveryCommandCanBeAssembled := by
  refine ⟨fun b => ⟨?enc, ?dec⟩, fun year month day wd hour min sec hun => ?setdt,
    fun r b => ⟨?lddt, ?lddtName, ?rddt, ?rddtName⟩, fun a b => ⟨?wrtxt, ?rdtxt⟩, rfl, rfl⟩
  all_goals apply assemble_cmd_of_fit
  all_goals
    simp only [Mnemonic.operandWidths, operandsFit, fits_num, fits_reg, Bool.and_self, List.map_cons, List.map_nil,
      operandValue, buildInstr, BitVec.ofNat_toNat, BitVec.setWidth_eq, Reg.ofIdx_idx]

/-! ### The pseudo-instructions -/

/-- TXTSTR is one WRTXT for each character, in ascending address order (R71). -/
theorem textCommands_eq_map (a : Nat) (text : List Char) : textCommands a text =
    (List.range text.length).map fun k => .wrtxt (BitVec.ofNat 6 (a + k)) (charByte (text.getD k ' ')) := by
  induction text generalizing a with
  | nil => rfl
  | cons c text ih =>
    rw [textCommands, ih, List.length_cons, List.range_succ_eq_map, List.map_cons, List.map_map]
    simp only [Function.comp_def, List.getD_cons_succ, Nat.succ_eq_add_one, Nat.add_right_comm, Nat.add_assoc]
    rfl

/-- Settles O59: a TXTSTR that fits expands, and RDALL is a list of eight commands. -/
theorem pseudoInstructionExpansions : Obligations.PseudoInstructionExpansions := by
  refine ⟨fun a text inside ascii => ?_, rfl⟩
  rw [assemble, if_pos ((wellFormed_txtstr_iff a text).2 ⟨inside, ascii⟩), ← textCommands_eq_map]

end Sys2Proof.Machine
end
